-- ==== Sys2Proof/Word.lean ====
section
/-! DEFINITION. The fixed-width words of the hardware (spec/00_scope.md R6, R9, R10). -/

namespace Sys2Proof

/-- A 32-bit word: a register, a block element, a command word, a byte address (R6, R20). -/
abbrev Word := BitVec 32

/-- One byte of the data memory (R60). -/
abbrev Byte := BitVec 8

/-- One 128-bit packed word (R6, `PW`). -/
abbrev PackedWord := BitVec 128

/-- The command field `W`, bits [13:8] (30_encoding.md R91). -/
abbrev WField := BitVec 6

/-- The command field `N`, bits [23:16] (30_encoding.md R91). -/
abbrev NField := BitVec 8

end Sys2Proof
end

