-- ==== Sys2Proof/Config.lean ====
section
/-! DEFINITION. What is fixed for the machine and never changes as it runs (spec/00_scope.md R7), and the
values the spec leaves free (93_implementation_defined.md U1, U2), which have no body. -/

namespace Sys2Proof

/-- The two legal values of the parameter `LAYOUT` (20_memory.md R71 to R74). -/
inductive Layout where
  /-- One bitstream, element 0 at its least significant end (R71). -/
  | horizontal
  /-- Four interleaved 32-bit lane streams (R74, not this hardware). -/
  | lane4
deriving DecidableEq, Repr

/-- `LAYOUT` for this hardware: `HORIZONTAL` (R7, D7; log entry 7). -/
def Config.layout : Layout := .horizontal

/-- `HAS_MASKED_PACK` for this hardware: true (R7, D18). -/
def Config.hasMaskedPack : Bool := true

/-- `REGBASE`: where the register block sits in the host's address space. OPEN; no rule reads it (R7, D4;
log entry 14), and no definition of the model does. -/
opaque Config.regBase : Word

/-- Free value U1: the content of a packed word that PACK or PACK_D leaves unspecified (41_pack_unpack.md
R143; log entry 4). It is applied to the counter `draws` of the state, so that each word of each run has a
value of its own and nothing is known of any of them. -/
opaque Config.freePackedWord : Nat → PackedWord

/-- Free value U2: `RES1` after a SEARCH_D that finds nothing (43_search_select.md R192; log entry 5),
applied to the counter `draws` of the state. -/
opaque Config.freeRes1 : Nat → Word

end Sys2Proof
end

