-- ==== Sys2Proof/Syntax.lean ====
section
/-! DEFINITION. The ten commands (spec/30_encoding.md R95), one constructor per row of
spec/opcode_table.json. An operand is what its field of the command word can hold (R91, R99): 6 bits for
`W`, 8 bits for `N`; a value outside the legal range is a command that faults (R97). -/

namespace Sys2Proof

/-- A command of the core. -/
inductive Instr where
  /-- 0x01, format Z: bit width of the block (40_analyzer.md R121). -/
  | maxbits
  /-- 0x02, format Z: bit width of the block's deltas (R122). -/
  | maxbitsD
  /-- 0x03, format N: bit width of the first `n` deltas (R123). -/
  | maxbitsDL (n : NField)
  /-- 0x04, format W: pack, without mask (41_pack_unpack.md R141). -/
  | pack (w : WField)
  /-- 0x05, format W: unpack (R145). -/
  | unpack (w : WField)
  /-- 0x06, format W: pack the deltas (42_delta.md R171). -/
  | packD (w : WField)
  /-- 0x07, format W: unpack deltas and sum them (R173). -/
  | unpackD (w : WField)
  /-- 0x08, format WN: lower-bound search over the first `n` values (43_search_select.md R191). -/
  | searchD (w : WField) (n : NField)
  /-- 0x09, format WN: the value at index `n` (R194). -/
  | selectD (w : WField) (n : NField)
  /-- 0x0A, format W: pack with every element masked (41_pack_unpack.md R144). -/
  | packM (w : WField)
deriving DecidableEq, Repr

end Sys2Proof
end

