-- ==== Sys2Proof/WellFormed.lean ====
section
/-! DEFINITION. Which commands carry legal operands (spec/30_encoding.md R93, R94). A command that is not
well formed still decodes and still runs: it raises `ERR_WIDTH` or `ERR_ARG` (R97). -/

namespace Sys2Proof

/-- The legal range of `W`: 0 to 32 (R93). -/
def wLegal (w : WField) : Bool := w.toNat ≤ 32

/-- The legal range of a length: 1 to 128 (R94). -/
def lengthLegal (n : NField) : Bool := 1 ≤ n.toNat && n.toNat ≤ 128

/-- The legal range of an index: 0 to 127 (R94). -/
def indexLegal (n : NField) : Bool := n.toNat ≤ 127

/-- Every operand of the command lies in its legal range (R93, R94, and `legal_ranges` of the table). -/
def Instr.wellFormed : Instr → Bool
  | .maxbits => true
  | .maxbitsD => true
  | .maxbitsDL n => lengthLegal n
  | .pack w => wLegal w
  | .unpack w => wLegal w
  | .packD w => wLegal w
  | .unpackD w => wLegal w
  | .searchD w n => wLegal w && lengthLegal n
  | .selectD w n => wLegal w && indexLegal n
  | .packM w => wLegal w

end Sys2Proof
end

