-- ==== Sys2Proof/Decode.lean ====
section
/-! DEFINITION. The command word (spec/30_encoding.md R90 to R99): the decoder, written from the opcode map
R95, and the encoder, written from R99. -/

namespace Sys2Proof

/-- Field `W`: bits [13:8] of the command word (R91). -/
def fieldW (v : Word) : WField := v.extractLsb' 8 6

/-- Field `N`: bits [23:16] of the command word (R91). -/
def fieldN (v : Word) : NField := v.extractLsb' 16 8

/-- One row of the opcode map (R95): the bits that are fixed, their values, and the command made of the
two fields. -/
structure OpRow where
  mask : Word
  value : Word
  build : WField → NField → Instr

/-- The nine rows that every core has (R95). -/
def baseRows : List OpRow :=
  [ ⟨0xFFFFFFFF#32, 0x00000001#32, fun _ _ => .maxbits⟩,
    ⟨0xFFFFFFFF#32, 0x00000002#32, fun _ _ => .maxbitsD⟩,
    ⟨0xFF00FFFF#32, 0x00000003#32, fun _ n => .maxbitsDL n⟩,
    ⟨0xFFFFC0FF#32, 0x00000004#32, fun w _ => .pack w⟩,
    ⟨0xFFFFC0FF#32, 0x00000005#32, fun w _ => .unpack w⟩,
    ⟨0xFFFFC0FF#32, 0x00000006#32, fun w _ => .packD w⟩,
    ⟨0xFFFFC0FF#32, 0x00000007#32, fun w _ => .unpackD w⟩,
    ⟨0xFF00C0FF#32, 0x00000008#32, fun w n => .searchD w n⟩,
    ⟨0xFF00C0FF#32, 0x00000009#32, fun w n => .selectD w n⟩ ]

/-- The row of PACK_M, present only when `HAS_MASKED_PACK` (R95). -/
def maskedRow : OpRow := ⟨0xFFFFC0FF#32, 0x0000000A#32, fun w _ => .packM w⟩

/-- The opcode map of a core with or without the masked packer (R95). -/
def opRows (masked : Bool) : List OpRow := if masked then baseRows ++ [maskedRow] else baseRows

/-- Does the word match the row (R90)? -/
def OpRow.selects (r : OpRow) (v : Word) : Bool := v &&& r.mask == r.value

/-- Why a word is no command. -/
inductive DecodeError where
  /-- It matches no row of the opcode map (R96): the core raises `ERR_OP`. -/
  | noRow
deriving DecidableEq, Repr

/-- Decode a command word on a core with or without the masked packer (R90, R95, R96). -/
def decodeOn (masked : Bool) (v : Word) : Except DecodeError Instr :=
  match (opRows masked).find? (fun r => r.selects v) with
  | some r => .ok (r.build (fieldW v) (fieldN v))
  | none => .error .noRow

/-- The decoder of this hardware, total on every word (R90). -/
def decode (v : Word) : Except DecodeError Instr := decodeOn Config.hasMaskedPack v

/-- A command word with the given opcode and fields: `op | w << 8 | n << 16` (R99). -/
def commandWord (op : Word) (w : WField) (n : NField) : Word :=
  op ||| (w.setWidth 32 <<< 8) ||| (n.setWidth 32 <<< 16)

/-- The command word of a command (R99). -/
def encode : Instr → Word
  | .maxbits => commandWord 0x01#32 0 0
  | .maxbitsD => commandWord 0x02#32 0 0
  | .maxbitsDL n => commandWord 0x03#32 0 n
  | .pack w => commandWord 0x04#32 w 0
  | .unpack w => commandWord 0x05#32 w 0
  | .packD w => commandWord 0x06#32 w 0
  | .unpackD w => commandWord 0x07#32 w 0
  | .searchD w n => commandWord 0x08#32 w n
  | .selectD w n => commandWord 0x09#32 w n
  | .packM w => commandWord 0x0A#32 w 0

/-- What the decoder reads from a word given as a number, its bits from `nbits` up being 0. -/
def decodeTableWord (nbits w : Nat) : Option Instr :=
  (decode (BitVec.ofNat 32 (w % 2 ^ nbits))).toOption

end Sys2Proof
end

