-- ==== Sys2Proof/Machine/Numeric.lean ====
section
/-! DEFINITION. The pure helper functions on numbers (spec/00_scope.md R14; 40_analyzer.md R120). They read no
state. -/

namespace Sys2Proof.Machine

/-- `bitlen(v)`: 0 for 0, else the `n` with `2^(n-1) <= v < 2^n` (R14). -/
def bitlen (v : Nat) : Nat := if v = 0 then 0 else Nat.log2 v + 1

/-- The bitwise OR of a list of values (R120). -/
def orAll : List Nat → Nat
  | [] => 0
  | v :: vs => v ||| orAll vs

/-- The width of a list of values (R120). -/
def width (vs : List Nat) : Nat := bitlen (orAll vs)

/-- Every value is less than `2^b`: `fits` of R14 over a list. -/
def allFit (b : Nat) (vs : List Nat) : Bool := vs.all (fun v => decide (v < 2 ^ b))

/-- `Deltas(o, X, n)`, exact integers: each value less the one before it, the first less `o` (R14). -/
def deltas (o : Nat) : List Nat → List Int
  | [] => []
  | x :: xs => ((x : Int) - (o : Int)) :: deltas x xs

/-- `Sorted(o, X, n)` seen on the deltas: none is negative (R14). -/
def noneNegative (ds : List Int) : Bool := ds.all (fun d => decide (0 ≤ d))

/-- The deltas as values, once none is negative. -/
def deltaValues (ds : List Int) : List Nat := ds.map Int.toNat

/-- `Sums(o, V, n)`: the running sums from `o`, exact (R14). -/
def sums (o : Nat) : List Nat → List Nat
  | [] => []
  | v :: vs => (o + v) :: sums (o + v) vs

/-- The least index whose value is not less than the key, or the length of the list
(43_search_select.md R191). -/
def lowerBound (key : Nat) : List Nat → Nat
  | [] => 0
  | v :: vs => if key ≤ v then 0 else lowerBound key vs + 1

end Sys2Proof.Machine
end

