-- ==== Sys2Proof/Machine/State.lean ====
section
/-! DEFINITION. The state of the machine (spec/10_state.md R20, R38, R39; 20_memory.md R60), what a host can
do to it (70_reset_and_hazards.md R262), and the reasons a step can stop. -/

namespace Sys2Proof.Machine

/-- The data memory: (address, byte) pairs at strictly rising addresses, none of them 0, which is what an
unlisted address reads as (log entry 2). -/
abbrev Memory := List Host.Cell

/-- A run of data-memory addresses that exist: `base` to `base + size - 1` (20_memory.md R60, R66). -/
structure Region where
  base : Nat
  size : Nat
deriving DecidableEq, Repr

/-- The eight fault codes of `STATUS.ERR` (60_exceptions.md R211). Each is an outcome of a command, not a
stop of the machine. -/
inductive ErrCode where
  /-- The command word matches no row of the opcode map (R215). -/
  | errOp
  /-- Field `W` is 33 to 63 (R216). -/
  | errWidth
  /-- Field `N` is outside the command's range (R217). -/
  | errArg
  /-- `PKD_LEN` is not `W` (R218). -/
  | errSize
  /-- A buffer address is misaligned (R219). -/
  | errAlign
  /-- A buffer leaves the address space or touches an unbacked byte (R220). -/
  | errAddr
  /-- A delta is negative (R222). -/
  | errOrder
  /-- A reconstructed value to be delivered is 2^32 or more (R223). -/
  | errRange
deriving DecidableEq, Repr

/-- The ten registers by name (10_state.md R20). -/
inductive RegName where
  | cmd
  | status
  | offset
  | key
  | blkAddr
  | pkdAddr
  | pkdLen
  | res0
  | res1
  | cap
deriving DecidableEq, Repr

/-- One action of the host (70_reset_and_hazards.md R262; 30_encoding.md R100). -/
inductive HostAction where
  /-- `RegRead(off)` (10_state.md R33). -/
  | regRead (off : Word)
  /-- `RegWrite(off, v)` (10_state.md R34). -/
  | regWrite (off v : Word)
  /-- A host load of `n` bytes at rising addresses from `addr`. -/
  | load (addr : Word) (n : Nat)
  /-- A host store of bytes at rising addresses from `addr`. -/
  | store (addr : Word) (bytes : List Byte)
  /-- Reset (70_reset_and_hazards.md R250). -/
  | reset
deriving DecidableEq, Repr

/-- What a read gives back to the host (R262, "host gets"). -/
inductive HostReply where
  /-- The value of a register read. -/
  | word (v : Word)
  /-- The bytes of a memory load, lowest address first. -/
  | bytes (bs : List Byte)
deriving DecidableEq, Repr

/-- The whole state: the ten registers, the data memory and which of its addresses exist, and three fields
of the model's own: the counter of free values, the host actions to come and the replies given. -/
structure State where
  /-- `CMD`, offset 0x00 (R23). -/
  cmd : Word
  /-- `STATUS`, offset 0x04 (R24); its fields are read and written through Machine/Flags.lean. -/
  status : Word
  /-- `OFFSET`, offset 0x08 (R25). -/
  offset : Word
  /-- `KEY`, offset 0x0C (R26). -/
  key : Word
  /-- `BLK_ADDR`, offset 0x10 (R27). -/
  blkAddr : Word
  /-- `PKD_ADDR`, offset 0x14 (R28). -/
  pkdAddr : Word
  /-- `PKD_LEN`, offset 0x18 (R29). -/
  pkdLen : Word
  /-- `RES0`, offset 0x1C (R30). -/
  res0 : Word
  /-- `RES1`, offset 0x20 (R30). -/
  res1 : Word
  /-- `CAP`, offset 0x24, a constant no step writes (R32; log entry 14). -/
  cap : Word
  /-- The data memory (20_memory.md R60). -/
  mem : Memory
  /-- `Backed`: the addresses that exist, never written by a step (R7, R66; log entry 3). -/
  backed : List Region
  /-- The model's own: how many free values have been drawn (log entry 6). -/
  draws : Nat
  /-- The model's own: the host actions still to come, the next one first (log entry 1). -/
  script : List HostAction
  /-- The model's own: what the host's reads have returned, the last one first (log entry 11). -/
  replies : List HostReply
deriving DecidableEq, Repr

/-- Why the machine stops with a fault. The core's own faults are not here: they are next states. -/
inductive Fault where
  /-- Raised by a host memory load or store (`hostLoad`, `hostStore`) that touches a byte outside `Backed`:
  the address does not exist (20_memory.md R60; 70 R262, "use any backed byte"). Safe: the model stops where
  the spec promises nothing (log entry 9). -/
  | hostAddressNotBacked (addr : Word)
deriving DecidableEq, Repr

/-- Why the machine has no meaning for an instruction. -/
inductive Refusal where
  /-- Raised by an arm of `exec` whose instruction has no meaning yet; no arm does. Safe. -/
  | notModelled (mnemonic : String)
deriving DecidableEq, Repr

/-- The machine right after reset (10_state.md R39). The registers are the spec's values. The memory lists
nothing (log entry 2), the existing addresses are those of the conventions of 95_test_vectors.md (log entry
3), and the model's own fields are empty (log entries 1, 6, 11). -/
def State.reset : State where
  cmd := 0x00000000#32
  status := 0x00000000#32
  offset := 0x00000000#32
  key := 0x00000000#32
  blkAddr := 0x00000000#32
  pkdAddr := 0x00000000#32
  pkdLen := 0x00000000#32
  res0 := 0x00000000#32
  res1 := 0x00000000#32
  cap := 0x00000001#32
  mem := []
  backed := [⟨0x00000000, 0x00010000⟩]
  draws := 0
  script := []
  replies := []

end Sys2Proof.Machine
end

