-- ==== Sys2Proof/Machine/Flags.lean ====
section
/-! DEFINITION. Bit fields of a register (spec/00_scope.md R10) and the fields of `STATUS` and `CAP`
(10_state.md R24, R32; 60_exceptions.md R211, R213, R214). -/

namespace Sys2Proof.Machine

/-- `v[lo+len-1 : lo]` (R10). -/
def field (v : Word) (lo len : Nat) : Nat := v.toNat / 2 ^ lo % 2 ^ len

/-- `v` with the field of `len` bits at `lo` holding `x`, every other bit kept. -/
def setField (v : Word) (lo len x : Nat) : Word :=
  BitVec.ofNat 32 (v.toNat - field v lo len * 2 ^ lo + x * 2 ^ lo)

/-- `STATUS.STATE`: 0 IDLE, 1 DONE, 2 FAULT (R24). -/
def statusState (v : Word) : Nat := field v 0 2

/-- `STATUS.ERR` (R24). -/
def statusErr (v : Word) : Nat := field v 4 4

/-- `STATUS.SFAULT` (R24). -/
def statusSfault (v : Word) : Nat := field v 8 1

/-- The code of a fault (R211). -/
def ErrCode.code : ErrCode → Nat
  | .errOp => 1
  | .errWidth => 2
  | .errArg => 3
  | .errSize => 4
  | .errAlign => 5
  | .errAddr => 6
  | .errOrder => 7
  | .errRange => 8

/-- `STATUS` when a command completes: `STATE` DONE, `ERR` 0 (R213). -/
def statusDone (v : Word) : Word := setField (setField v 0 2 1) 4 4 0

/-- `STATUS` when a command faults: `STATE` FAULT, `ERR` the code, `SFAULT` 1 (R214). -/
def statusFault (c : ErrCode) (v : Word) : Word :=
  setField (setField (setField v 0 2 2) 4 4 c.code) 8 1 1

/-- `STATUS` after a host write of `w`: `SFAULT` is cleared if bit 8 of `w` is 1 (R24, R34). -/
def statusWritten (w v : Word) : Word := if field w 8 1 = 1 then setField v 8 1 0 else v

/-- What `CAP` holds: bit 0 `MASKED`, bit 1 `LANE4` (R32). -/
def capValue (masked : Bool) (layout : Layout) : Word :=
  BitVec.ofNat 32 ((if masked then 1 else 0) + (if layout = .lane4 then 2 else 0))

end Sys2Proof.Machine
end

