-- ==== Sys2Proof/Machine/Ops.lean ====
section
/-! DEFINITION. The named operations over memory and registers, completing a command, and fault entry
(spec/00_scope.md R12, R13; 10_state.md R33; 20_memory.md R60 to R70; 60_exceptions.md R213, R214). -/

namespace Sys2Proof.Machine

/-! ### The data memory -/

/-- The byte at an address; an unlisted address reads 0 (log entry 2). -/
def Memory.read (m : Memory) (a : Nat) : Byte :=
  match m with
  | [] => 0#8
  | (k, b) :: rest => if k = a then b else Memory.read rest a

/-- The memory without any entry for an address. -/
def Memory.clearAt (m : Memory) (a : Nat) : Memory := m.filter (fun c => c.1 != a)

/-- The memory with an entry put in its place by address. -/
def Memory.enterAt (m : Memory) (a : Nat) (b : Byte) : Memory :=
  match m with
  | [] => [(a, b)]
  | (k, c) :: rest => if a < k then (a, b) :: (k, c) :: rest else (k, c) :: Memory.enterAt rest a b

/-- Write one byte, keeping the canonical form: a 0 is not listed. -/
def Memory.write (m : Memory) (a : Nat) (b : Byte) : Memory :=
  if b = 0#8 then m.clearAt a else (m.clearAt a).enterAt a b

/-- The canonical form: addresses strictly rising, no listed byte 0. -/
def Memory.wf : Memory → Bool
  | [] => true
  | [(_, b)] => b != 0#8
  | (k, b) :: (k', b') :: rest => b != 0#8 && decide (k < k') && Memory.wf ((k', b') :: rest)

/-- `MemRead(a, n)`: `n` bytes as one little-endian number (R12, R70). -/
def Memory.readLE (m : Memory) (a : Nat) : Nat → Nat
  | 0 => 0
  | n + 1 => (m.read a).toNat + 256 * Memory.readLE m (a + 1) n

/-- `MemWrite(a, n, v)`: the `n` low bytes of `v`, least significant first (R12, R70). -/
def Memory.writeLE (m : Memory) (a : Nat) : Nat → Nat → Memory
  | 0, _ => m
  | n + 1, v => Memory.writeLE (m.write a (BitVec.ofNat 8 v)) (a + 1) n (v / 256)

/-- Bytes at rising addresses, as a host load gives them. -/
def Memory.readBytes (m : Memory) (a n : Nat) : List Byte := (List.range n).map (fun j => m.read (a + j))

/-- Bytes stored at rising addresses, as a host store does it. -/
def Memory.writeBytes (m : Memory) (a : Nat) : List Byte → Memory
  | [] => m
  | b :: bs => Memory.writeBytes (m.write a b) (a + 1) bs

/-- `LoadBlock(a, n)`: `n` elements of 4 bytes (R14, R68). -/
def Memory.loadBlock (m : Memory) (a n : Nat) : List Nat :=
  (List.range n).map (fun i => m.readLE (a + 4 * i) 4)

/-- `StoreBlock(a, X)`: one element of 4 bytes after another (R14, R68). -/
def Memory.storeBlock (m : Memory) (a : Nat) : List Nat → Memory
  | [] => m
  | x :: xs => Memory.storeBlock (m.writeLE a 4 x) (a + 4) xs

/-- `LoadPacked(a, b)`: `b` words of 16 bytes (R14, R69). -/
def Memory.loadPacked (m : Memory) (a b : Nat) : List PackedWord :=
  (List.range b).map (fun w => BitVec.ofNat 128 (m.readLE (a + 16 * w) 16))

/-- `StorePacked(a, W, b)`: one word of 16 bytes after another (R14, R69). -/
def Memory.storePacked (m : Memory) (a : Nat) : List PackedWord → Memory
  | [] => m
  | w :: ws => Memory.storePacked (m.writeLE a 16 w.toNat) (a + 16) ws

/-- `Backed(a)`: the address is a 32-bit address that exists (R7, R60, R66). -/
def backedAt (rs : List Region) (a : Nat) : Bool :=
  decide (a < 2 ^ 32) && rs.any (fun r => decide (r.base ≤ a) && decide (a < r.base + r.size))

/-- A buffer of `n` bytes at `a` ends inside the address space (R65) and every byte of it exists (R66). -/
def bufferExists (rs : List Region) (a n : Nat) : Bool :=
  decide (a + n ≤ 2 ^ 32) && (List.range n).all (fun j => backedAt rs (a + j))

/-! ### The registers -/

/-- The byte offset of a register from `REGBASE` (10_state.md R20). -/
def RegName.byteOffset : RegName → Word
  | .cmd => 0x00#32
  | .status => 0x04#32
  | .offset => 0x08#32
  | .key => 0x0C#32
  | .blkAddr => 0x10#32
  | .pkdAddr => 0x14#32
  | .pkdLen => 0x18#32
  | .res0 => 0x1C#32
  | .res1 => 0x20#32
  | .cap => 0x24#32

/-- The register at a byte offset, if there is one (R20, R33). -/
def regNameAt (off : Word) : Option RegName :=
  [RegName.cmd, .status, .offset, .key, .blkAddr, .pkdAddr, .pkdLen, .res0, .res1, .cap].find?
    (fun r => r.byteOffset == off)

/-- The value of a register. -/
def State.reg (s : State) : RegName → Word
  | .cmd => s.cmd
  | .status => s.status
  | .offset => s.offset
  | .key => s.key
  | .blkAddr => s.blkAddr
  | .pkdAddr => s.pkdAddr
  | .pkdLen => s.pkdLen
  | .res0 => s.res0
  | .res1 => s.res1
  | .cap => s.cap

/-- `RegRead(off)`: the register's value, or 0 at any other offset (R33). -/
def State.regRead (s : State) (off : Word) : Word :=
  match regNameAt off with
  | some r => s.reg r
  | none => 0x00000000#32

/-- Every register at its reset value, the memory and all else untouched (70_reset_and_hazards.md R250). -/
def State.resetRegs (s : State) : State :=
  { State.reset with
    mem := s.mem
    backed := s.backed
    draws := s.draws
    script := s.script
    replies := s.replies }

/-! ### How a command ends -/

/-- Completion (60_exceptions.md R213). -/
def State.complete (s : State) : State := { s with status := statusDone s.status }

/-- Fault entry, `raise Fault(c)` (60_exceptions.md R214): `STATUS` and nothing else. No pc is saved and no
handler is entered, because the core has none; so there is no return either (R225). -/
def State.raise (s : State) (c : ErrCode) : State := { s with status := statusFault c s.status }

/-- Run a command: the first fault found by the checks that come before any read, else what the body gives,
which is either a fault found in the data or the state with the command's writes made (R221; 20_memory.md
R77). A fault is entered from the state before the command (R13). -/
def runCommand (s : State) (early : Option ErrCode) (body : Except ErrCode State) :
    Host.Outcome State Fault Refusal :=
  match early with
  | some c => .next (s.raise c)
  | none =>
    match body with
    | .error c => .next (s.raise c)
    | .ok t => .next t.complete

end Sys2Proof.Machine
end

