-- ==== Sys2Proof/Machine/Packing.lean ====
section
/-! DEFINITION. The bit layout of a packed buffer (spec/20_memory.md R71 to R74), for either value of the
parameter `LAYOUT`. -/

namespace Sys2Proof.Machine

/-- A bit position of a packed buffer: which word, which bit of it. -/
structure BitPos where
  word : Nat
  bit : Nat
deriving DecidableEq, Repr

/-- Where bit `k` of element `i` is stored at width `b`: `pos_H` (R71) or `pos_L` (R74). -/
def bitPos : Layout → Nat → Nat → Nat → BitPos
  | .horizontal, b, i, k => ⟨(i * b + k) / 128, (i * b + k) % 128⟩
  | .lane4, b, i, k => ⟨(i / 4 * b + k) / 32, 32 * (i % 4) + (i / 4 * b + k) % 32⟩

/-- Values laid end to end, `b` bits each, the first at the least significant end: `V[0] + V[1]*2^b + …`
(R72). -/
def joinBits (b : Nat) : List Nat → Nat
  | [] => 0
  | v :: vs => v + 2 ^ b * joinBits b vs

/-- Digit `i` of a number cut into digits of `b` bits: `S[i*b+b-1 : i*b]` (R73). -/
def digit (b s i : Nat) : Nat := s / 2 ^ (i * b) % 2 ^ b

/-- The elements of lane `l` of a block, in order: elements `l`, `l + 4`, `l + 8`, … (R74). -/
def laneElements (vs : List Nat) (l : Nat) : List Nat :=
  (List.range 32).map (fun r => vs.getD (4 * r + l) 0)

/-- Word `w` under `LANE4`: 32 bits of each of the four lane streams side by side (R74). -/
def laneWord (b : Nat) (vs : List Nat) (w : Nat) : Nat :=
  joinBits 32 ((List.range 4).map (fun l => digit 32 (joinBits b (laneElements vs l)) w))

/-- The stream of lane `l` read back from the packed words (R74). -/
def laneStream (ws : List PackedWord) (l : Nat) : Nat :=
  joinBits 32 (ws.map (fun w => digit 32 w.toNat l))

/-- `PackWords(V, b)` (R72, R74). It is used only where every value is less than `2^b`. -/
def packWords : Layout → Nat → List Nat → List PackedWord
  | .horizontal, b, vs => (List.range b).map (fun w => BitVec.ofNat 128 (digit 128 (joinBits b vs) w))
  | .lane4, b, vs => (List.range b).map (fun w => BitVec.ofNat 128 (laneWord b vs w))

/-- `UnpackWords(W, b)`: 128 values, each less than `2^b`; at `b = 0` all of them 0 (R73, R74). -/
def unpackWords : Layout → Nat → List PackedWord → List Nat
  | .horizontal, b, ws => (List.range 128).map (fun i => digit b (joinBits 128 (ws.map BitVec.toNat)) i)
  | .lane4, b, ws => (List.range 128).map (fun i => digit b (laneStream ws (i % 4)) (i / 4))

end Sys2Proof.Machine
end

