-- ==== Sys2Proof/Machine/Operands.lean ====
section
/-! DEFINITION. The operands of a command: the ranges of its fields, its two buffers, and the checks made on
them before anything is read (spec/20_memory.md R64 to R69, R85; 60_exceptions.md R216 to R221). -/

namespace Sys2Proof.Machine

/-- Is `N` a legal length, 1 to 128 (R94, R217)? -/
def lengthOk (n : NField) : Bool := decide (1 ≤ n.toNat) && decide (n.toNat ≤ 128)

/-- Is `N` a legal index, 0 to 127 (R94, R217)? -/
def indexOk (n : NField) : Bool := decide (n.toNat ≤ 127)

/-- Is `W` a legal width, 0 to 32 (R93, R216)? A command without a `W` has nothing to check. -/
def widthOk : Option WField → Bool
  | none => true
  | some w => decide (w.toNat ≤ 32)

/-- Does `PKD_LEN` say what `W` says (R218)? -/
def sizeOk (s : State) : Option WField → Bool
  | none => true
  | some w => s.pkdLen == w.setWidth 32

/-- A block buffer address is a multiple of 4 (R64). -/
def blockAligned (s : State) : Option Nat → Bool
  | none => true
  | some _ => decide (s.blkAddr.toNat % 4 = 0)

/-- A packed buffer address is a multiple of 16; with `W = 0` it is not looked at (R64, R67). -/
def packedAligned (s : State) : Option WField → Bool
  | none => true
  | some w => decide (w.toNat = 0) || decide (s.pkdAddr.toNat % 16 = 0)

/-- The bytes of the block buffer exist (R65, R66). -/
def blockExists (s : State) : Option Nat → Bool
  | none => true
  | some n => bufferExists s.backed s.blkAddr.toNat n

/-- The bytes of the packed buffer exist; with `W = 0` there are none (R65, R66, R67). -/
def packedExists (s : State) : Option WField → Bool
  | none => true
  | some w => decide (w.toNat = 0) || bufferExists s.backed s.pkdAddr.toNat (16 * w.toNat)

/-- The first fault among steps 2 to 6 of R221, if any. `w` is the width of a command that has one (and so
uses a packed buffer), `argOk` says whether its `N` is in range, `blk` is the size in bytes of the block
buffer of a command that uses one. -/
def firstFault (s : State) (w : Option WField) (argOk : Bool) (blk : Option Nat) : Option ErrCode :=
  if !widthOk w then some .errWidth
  else if !argOk then some .errArg
  else if !sizeOk s w then some .errSize
  else if !(blockAligned s blk && packedAligned s w) then some .errAlign
  else if !(blockExists s blk && packedExists s w) then some .errAddr
  else none

/-- The first `n` elements of the block buffer (R68, R85). -/
def State.elements (s : State) (n : Nat) : List Nat := s.mem.loadBlock s.blkAddr.toNat n

/-- The values in the packed buffer read at width `b` (R69, R73). -/
def State.unpacked (s : State) (b : Nat) : List Nat :=
  unpackWords Config.layout b (s.mem.loadPacked s.pkdAddr.toNat b)

/-- The reconstructed values `S[0..127]`: running sums of the packed deltas from `OFFSET`
(42_delta.md R173; 43_search_select.md R190). -/
def State.reconstructed (s : State) (b : Nat) : List Nat := sums s.offset.toNat (s.unpacked b)

/-- The state with 128 elements stored in the block buffer (R68). -/
def State.storeElements (s : State) (xs : List Nat) : State :=
  { s with mem := s.mem.storeBlock s.blkAddr.toNat xs }

/-- The state with the values packed at width `b` stored in the packed buffer (R69, R72). -/
def State.storeValues (s : State) (b : Nat) (vs : List Nat) : State :=
  { s with mem := s.mem.storePacked s.pkdAddr.toNat (packWords Config.layout b vs) }

/-- `b` packed words of unspecified content: free values, fresh from the counter `k` on
(41_pack_unpack.md R143; log entry 4). -/
def freePackedWords (k b : Nat) : List PackedWord :=
  (List.range b).map (fun w => Config.freePackedWord (k + w))

/-- The state with `b` words of unspecified content stored in the packed buffer (R143). -/
def State.storeUnspecified (s : State) (b : Nat) : State :=
  { s with
    mem := s.mem.storePacked s.pkdAddr.toNat (freePackedWords s.draws b)
    draws := s.draws + b }

/-- What the packers without mask store: the packed values if every value fits, unspecified words if one
does not (R141, R143, R171). -/
def State.storeUnmasked (s : State) (b : Nat) (vs : List Nat) : State :=
  if allFit b vs then s.storeValues b vs else s.storeUnspecified b

end Sys2Proof.Machine
end

