-- ==== Sys2Proof/Machine/Analyzer.lean ====
section
/-! DEFINITION. The bit-width analyzer: MAXBITS, MAXBITS_D, MAXBITS_DL (spec/40_analyzer.md). -/

namespace Sys2Proof.Machine

/-- The width of the first `n` deltas into `RES0`, or `ERR_ORDER` (R122, R123). -/
def deltaWidth (s : State) (n : Nat) : Except ErrCode State :=
  if noneNegative (deltas s.offset.toNat (s.elements n)) then
    .ok { s with res0 := BitVec.ofNat 32 (width (deltaValues (deltas s.offset.toNat (s.elements n)))) }
  else .error .errOrder

/-- MAXBITS (R121). -/
def execMaxbits (s : State) : Host.Outcome State Fault Refusal :=
  runCommand s (firstFault s none true (some 512))
    (.ok { s with res0 := BitVec.ofNat 32 (width (s.elements 128)) })

/-- MAXBITS_D (R122). -/
def execMaxbitsD (s : State) : Host.Outcome State Fault Refusal :=
  runCommand s (firstFault s none true (some 512)) (deltaWidth s 128)

/-- MAXBITS_DL (R123): only the first `N` elements are checked and read (20_memory.md R85). -/
def execMaxbitsDL (n : NField) (s : State) : Host.Outcome State Fault Refusal :=
  runCommand s (firstFault s none (lengthOk n) (some (4 * n.toNat))) (deltaWidth s n.toNat)

end Sys2Proof.Machine
end

