-- ==== Sys2Proof/Machine/Delta.lean ====
section
/-! DEFINITION. The delta packer and unpacker: PACK_D, UNPACK_D (spec/42_delta.md). -/

namespace Sys2Proof.Machine

/-- PACK_D (R171, R172). -/
def execPackD (w : WField) (s : State) : Host.Outcome State Fault Refusal :=
  runCommand s (firstFault s (some w) true (some 512))
    (if noneNegative (deltas s.offset.toNat (s.elements 128)) then
      .ok (s.storeUnmasked w.toNat (deltaValues (deltas s.offset.toNat (s.elements 128))))
    else .error .errOrder)

/-- UNPACK_D (R172, R173, R174): the last sum is the largest, so it alone is tested. -/
def execUnpackD (w : WField) (s : State) : Host.Outcome State Fault Refusal :=
  runCommand s (firstFault s (some w) true (some 512))
    (if (s.reconstructed w.toNat).getD 127 0 < 2 ^ 32 then
      .ok (s.storeElements (s.reconstructed w.toNat))
    else .error .errRange)

end Sys2Proof.Machine
end

