-- ==== Sys2Proof/Machine/PackUnpack.lean ====
section
/-! DEFINITION. The raw block packer and unpacker: PACK, PACK_M, UNPACK (spec/41_pack_unpack.md). -/

namespace Sys2Proof.Machine

/-- PACK (R141, R142, R143). -/
def execPack (w : WField) (s : State) : Host.Outcome State Fault Refusal :=
  runCommand s (firstFault s (some w) true (some 512))
    (.ok (s.storeUnmasked w.toNat (s.elements 128)))

/-- PACK_M (R144): every element is first cut to its low `W` bits. -/
def execPackM (w : WField) (s : State) : Host.Outcome State Fault Refusal :=
  runCommand s (firstFault s (some w) true (some 512))
    (.ok (s.storeValues w.toNat ((s.elements 128).map (fun x => x % 2 ^ w.toNat))))

/-- UNPACK (R145). -/
def execUnpack (w : WField) (s : State) : Host.Outcome State Fault Refusal :=
  runCommand s (firstFault s (some w) true (some 512))
    (.ok (s.storeElements (s.unpacked w.toNat)))

end Sys2Proof.Machine
end

