-- ==== Sys2Proof/Machine/SearchSelect.lean ====
section
/-! DEFINITION. Packed lower-bound search and element select: SEARCH_D, SELECT_D
(spec/43_search_select.md). -/

namespace Sys2Proof.Machine

/-- The index SEARCH_D finds among the first `n` reconstructed values, `n` if there is none (R191). -/
def searchIndex (s : State) (b n : Nat) : Nat := lowerBound s.key.toNat ((s.reconstructed b).take n)

/-- SEARCH_D (R191). When nothing is found `RES1` is a free value (R192; log entry 5). -/
def execSearchD (w : WField) (n : NField) (s : State) : Host.Outcome State Fault Refusal :=
  runCommand s (firstFault s (some w) (lengthOk n) none)
    (if searchIndex s w.toNat n.toNat < n.toNat then
      if (s.reconstructed w.toNat).getD (searchIndex s w.toNat n.toNat) 0 < 2 ^ 32 then
        .ok { s with
          res0 := BitVec.ofNat 32 (searchIndex s w.toNat n.toNat)
          res1 := BitVec.ofNat 32 ((s.reconstructed w.toNat).getD (searchIndex s w.toNat n.toNat) 0) }
      else .error .errRange
    else
      .ok { s with
        res0 := BitVec.ofNat 32 n.toNat
        res1 := Config.freeRes1 s.draws
        draws := s.draws + 1 })

/-- SELECT_D (R194). -/
def execSelectD (w : WField) (n : NField) (s : State) : Host.Outcome State Fault Refusal :=
  runCommand s (firstFault s (some w) (indexOk n) none)
    (if (s.reconstructed w.toNat).getD n.toNat 0 < 2 ^ 32 then
      .ok { s with res0 := BitVec.ofNat 32 ((s.reconstructed w.toNat).getD n.toNat 0) }
    else .error .errRange)

end Sys2Proof.Machine
end

