-- ==== Sys2Proof/Machine/Dispatch.lean ====
section
/-! DEFINITION. One arm per command. -/

namespace Sys2Proof.Machine

/-- What a command does, its word being already in `CMD` (10_state.md R23). -/
def exec (i : Instr) (s : State) : Host.Outcome State Fault Refusal :=
  match i with
  | .maxbits => Sys2Proof.Machine.execMaxbits s
  | .maxbitsD => Sys2Proof.Machine.execMaxbitsD s
  | .maxbitsDL n => Sys2Proof.Machine.execMaxbitsDL n s
  | .pack w => Sys2Proof.Machine.execPack w s
  | .unpack w => Sys2Proof.Machine.execUnpack w s
  | .packD w => Sys2Proof.Machine.execPackD w s
  | .unpackD w => Sys2Proof.Machine.execUnpackD w s
  | .searchD w n => Sys2Proof.Machine.execSearchD w n s
  | .selectD w n => Sys2Proof.Machine.execSelectD w n s
  | .packM w => Sys2Proof.Machine.execPackM w s

end Sys2Proof.Machine
end

