-- ==== Sys2Proof/Machine/HostPort.lean ====
section
/-! DEFINITION. What the host can do between commands (spec/10_state.md R23, R33, R34; 30_encoding.md R90,
R100; 70_reset_and_hazards.md R250, R262). -/

namespace Sys2Proof.Machine

/-- `Execute(v)`: decode the word and run the command, or raise `ERR_OP` (R90, R96). -/
def executeWord (v : Word) (s : State) : Host.Outcome State Fault Refusal :=
  match decode v with
  | .ok i => exec i s
  | .error .noRow => .next (s.raise .errOp)

/-- A host write of a register by name (R34): `CMD` is stored and then executed, `STATUS` is
write-one-to-clear, the operand registers take the value, the rest ignore it. -/
def writeReg (r : RegName) (v : Word) (s : State) : Host.Outcome State Fault Refusal :=
  match r with
  | .cmd => executeWord v { s with cmd := v }
  | .status => .next { s with status := statusWritten v s.status }
  | .offset => .next { s with offset := v }
  | .key => .next { s with key := v }
  | .blkAddr => .next { s with blkAddr := v }
  | .pkdAddr => .next { s with pkdAddr := v }
  | .pkdLen => .next { s with pkdLen := v }
  | .res0 => .next s
  | .res1 => .next s
  | .cap => .next s

/-- `RegWrite(off, v)`; a write at any other offset does nothing (R34). -/
def hostRegWrite (off v : Word) (s : State) : Host.Outcome State Fault Refusal :=
  match regNameAt off with
  | some r => writeReg r v s
  | none => .next s

/-- The state with one more reply given to the host. -/
def State.reply (s : State) (r : HostReply) : State := { s with replies := r :: s.replies }

/-- `RegRead(off)`: the host gets the value, nothing else changes (R33). -/
def hostRegRead (off : Word) (s : State) : Host.Outcome State Fault Refusal :=
  .next (s.reply (.word (s.regRead off)))

/-- A host load of backed bytes (R262); an address that does not exist stops the model (log entry 9). -/
def hostLoad (addr : Word) (n : Nat) (s : State) : Host.Outcome State Fault Refusal :=
  if bufferExists s.backed addr.toNat n then
    .next (s.reply (.bytes (s.mem.readBytes addr.toNat n)))
  else .fault (.hostAddressNotBacked addr)

/-- A host store of backed bytes (R262); an address that does not exist stops the model (log entry 9). -/
def hostStore (addr : Word) (bs : List Byte) (s : State) : Host.Outcome State Fault Refusal :=
  if bufferExists s.backed addr.toNat bs.length then
    .next { s with mem := s.mem.writeBytes addr.toNat bs }
  else .fault (.hostAddressNotBacked addr)

/-- One host action (R262). -/
def runAction (a : HostAction) (s : State) : Host.Outcome State Fault Refusal :=
  match a with
  | .regRead off => hostRegRead off s
  | .regWrite off v => hostRegWrite off v s
  | .load addr n => hostLoad addr n s
  | .store addr bs => hostStore addr bs s
  | .reset => .next s.resetRegs

/-- The next action of the script, taken off it; with none left the core holds its state (R231, R263; log
entries 1 and 10). -/
def runNextAction (s : State) : Host.Outcome State Fault Refusal :=
  match s.script with
  | [] => .next s
  | a :: rest => runAction a { s with script := rest }

/-! ### Script statements (30_encoding.md R100) -/

/-- `WR REG, value`. -/
def scriptWR (r : RegName) (v : Word) : HostAction := .regWrite r.byteOffset v

/-- `RD REG`. -/
def scriptRD (r : RegName) : HostAction := .regRead r.byteOffset

/-- A command mnemonic line: a write of its encoding to `CMD`. -/
def scriptCommand (i : Instr) : HostAction := .regWrite 0x00#32 (encode i)

/-- `CLRF`: clears `SFAULT`. -/
def scriptCLRF : HostAction := .regWrite 0x04#32 0x00000100#32

/-- `ST32 addr, value`: a host store of 4 bytes, little-endian. -/
def scriptST32 (addr v : Word) : HostAction :=
  .store addr [v.extractLsb' 0 8, v.extractLsb' 8 8, v.extractLsb' 16 8, v.extractLsb' 24 8]

/-- `LD32 addr`: a host load of 4 bytes, lowest address (least significant byte) first. -/
def scriptLD32 (addr : Word) : HostAction := .load addr 4

end Sys2Proof.Machine
end

