-- ==== Sys2Proof/Machine/Step.lean ====
section
/-! DEFINITION. One step of the machine: one host action (spec/10_state.md R22, R23; 70_reset_and_hazards.md
R262, R265). The core has no program counter and fetches nothing; a command is a value the host writes to
`CMD` (log entry 1). -/

namespace Sys2Proof.Machine

/-- One step: the next host action, a `CMD` write running its whole command. -/
def step (s : State) : Host.Outcome State Fault Refusal := runNextAction s

/-- The state whose next host action is a write of the given word to `CMD`, before any action already in the
script (log entry 1). -/
def State.withFetchWord (s : State) (nbits w : Nat) : State :=
  { s with script := .regWrite 0x00#32 (BitVec.ofNat 32 (w % 2 ^ nbits)) :: s.script }

end Sys2Proof.Machine
end

