-- ==== Sys2Proof/Safety.lean ====
section
/-! DEFINITION. The words in which claims are made: what a command's buffers hold, when its checks pass, what
the spec's tables say of each command, which states are legal, and what counts as a run gone wrong. -/

namespace Sys2Proof.Machine

/-! ### Memory and buffers -/

/-- The address is a 32-bit address that exists (20_memory.md R60, R66). -/
abbrev State.AddressExists (s : State) (a : Nat) : Prop :=
  a < 2 ^ 32 ∧ ∃ r ∈ s.backed, r.base ≤ a ∧ a < r.base + r.size

/-- `n` bytes at `a` end inside the address space and all exist (R65, R66). -/
abbrev State.BytesExist (s : State) (a n : Nat) : Prop :=
  a + n ≤ 2 ^ 32 ∧ ∀ j, j < n → s.AddressExists (a + j)

/-- The block buffer address is aligned (R64). -/
abbrev State.BlockAligned (s : State) : Prop := s.blkAddr.toNat % 4 = 0

/-- The packed buffer address of a command of width `b` is aligned, or not looked at (R64, R67). -/
abbrev State.PackedAligned (s : State) (b : Nat) : Prop := 0 < b → s.pkdAddr.toNat % 16 = 0

/-- The block buffer of `n` bytes exists (R65, R66). -/
abbrev State.BlockExists (s : State) (n : Nat) : Prop := s.BytesExist s.blkAddr.toNat n

/-- The packed buffer of a command of width `b` exists, or has no bytes (R65, R66, R67). -/
abbrev State.PackedExists (s : State) (b : Nat) : Prop := 0 < b → s.BytesExist s.pkdAddr.toNat (16 * b)

/-- The block buffer of `n` bytes passes its checks (R64 to R66). -/
abbrev State.BlockUsable (s : State) (n : Nat) : Prop := s.BlockAligned ∧ s.BlockExists n

/-- The packed buffer of a command of width `b` passes its checks (60_exceptions.md R216, R218; 20_memory.md
R64 to R67). -/
abbrev State.PackedUsable (s : State) (b : Nat) : Prop :=
  b ≤ 32 ∧ s.pkdLen.toNat = b ∧ s.PackedAligned b ∧ s.PackedExists b

/-- Element `i` of the block buffer (R68). -/
def State.elem (s : State) (i : Nat) : Nat := s.mem.readLE (s.blkAddr.toNat + 4 * i) 4

/-- Delta `i` of the block buffer from `OFFSET`, exact (00_scope.md R14). -/
def State.deltaAt (s : State) (i : Nat) : Int :=
  if i = 0 then (s.elem 0 : Int) - (s.offset.toNat : Int) else (s.elem i : Int) - (s.elem (i - 1) : Int)

/-- Packed word `w` of the packed buffer (R69). -/
def State.packedWordAt (s : State) (w : Nat) : Nat := s.mem.readLE (s.pkdAddr.toNat + 16 * w) 16

/-- Bit `k` of element `i` of the packed buffer at width `b`, where the layout puts it (R71, R74). -/
def State.packedBit (s : State) (b i k : Nat) : Bool :=
  (s.packedWordAt (bitPos Config.layout b i k).word).testBit (bitPos Config.layout b i k).bit

/-- Element `i` of the packed buffer at width `b`, made of its `b` bits (R73). -/
def State.packedElem (s : State) (b i : Nat) : Nat :=
  ((List.range b).map (fun k => if s.packedBit b i k then 2 ^ k else 0)).sum

/-- Reconstructed value `i`: `OFFSET + D[0] + … + D[i]`, exact (00_scope.md R17; 43_search_select.md R190). -/
def State.sumAt (s : State) (b i : Nat) : Nat :=
  s.offset.toNat + ((List.range (i + 1)).map (s.packedElem b)).sum

/-- `b` is the least width that holds the first `n` of the values (40_analyzer.md R120, R121). -/
def IsWidth (v : Nat → Nat) (n b : Nat) : Prop :=
  b ≤ 32 ∧ (∀ i, i < n → v i < 2 ^ b) ∧ ∀ c, (∀ i, i < n → v i < 2 ^ c) → b ≤ c

/-- After the command the packed buffer holds the 128 values at width `b`, and no byte outside it has
changed (20_memory.md R72; 00_scope.md R18). -/
def StoresPacked (s t : State) (b : Nat) (v : Nat → Nat) : Prop :=
  (∀ i, i < 128 → ∀ k, k < b → t.packedBit b i k = (v i).testBit k) ∧
  ∀ a, a < s.pkdAddr.toNat ∨ s.pkdAddr.toNat + 16 * b ≤ a → t.mem.read a = s.mem.read a

/-- After the command the block buffer holds the 128 values, and no byte outside it has changed (R68). -/
def StoresBlock (s t : State) (v : Nat → Nat) : Prop :=
  (∀ i, i < 128 → t.elem i = v i) ∧
  ∀ a, a < s.blkAddr.toNat ∨ s.blkAddr.toNat + 512 ≤ a → t.mem.read a = s.mem.read a

/-- Only memory and `STATUS` differ, and `STATUS` says the command completed (60_exceptions.md R213). -/
def CompletesInMemory (s t : State) : Prop := t = { s with mem := t.mem, status := statusDone s.status }

/-! ### What the spec's tables say of each command -/

/-- The width of a command that has one; such a command uses a packed buffer (30_encoding.md R92; 20_memory.md
R76). -/
def widthFieldOf : Instr → Option Nat
  | .maxbits => none
  | .maxbitsD => none
  | .maxbitsDL _ => none
  | .pack w => some w.toNat
  | .unpack w => some w.toNat
  | .packD w => some w.toNat
  | .unpackD w => some w.toNat
  | .searchD w _ => some w.toNat
  | .selectD w _ => some w.toNat
  | .packM w => some w.toNat

/-- `N` lies in the command's range (30_encoding.md R94). -/
def ArgInRange : Instr → Prop
  | .maxbitsDL n => 1 ≤ n.toNat ∧ n.toNat ≤ 128
  | .searchD _ n => 1 ≤ n.toNat ∧ n.toNat ≤ 128
  | .selectD _ n => n.toNat ≤ 127
  | _ => True

/-- The size in bytes of the block buffer of a command that uses one (20_memory.md R65, R76, R85). -/
def blockBytesOf : Instr → Option Nat
  | .maxbits => some 512
  | .maxbitsD => some 512
  | .maxbitsDL n => some (4 * n.toNat)
  | .pack _ => some 512
  | .unpack _ => some 512
  | .packD _ => some 512
  | .unpackD _ => some 512
  | .searchD _ _ => none
  | .selectD _ _ => none
  | .packM _ => some 512

/-- Step 2 of 60_exceptions.md R221 does not fault (R216). -/
def WidthPasses (i : Instr) : Prop := ∀ b, widthFieldOf i = some b → b ≤ 32

/-- Step 4 does not fault (R218). -/
def SizePasses (i : Instr) (s : State) : Prop := ∀ b, widthFieldOf i = some b → s.pkdLen.toNat = b

/-- Step 5 does not fault, for any buffer the command uses (R219). -/
def AlignPasses (i : Instr) (s : State) : Prop :=
  (∀ n, blockBytesOf i = some n → s.BlockAligned) ∧ ∀ b, widthFieldOf i = some b → s.PackedAligned b

/-- Step 6 does not fault, for any buffer the command uses (R220). -/
def AddrPasses (i : Instr) (s : State) : Prop :=
  (∀ n, blockBytesOf i = some n → s.BlockExists n) ∧ ∀ b, widthFieldOf i = some b → s.PackedExists b

/-- Steps 2 to 6 of R221 all pass. -/
def ChecksPass (i : Instr) (s : State) : Prop :=
  WidthPasses i ∧ ArgInRange i ∧ SizePasses i s ∧ AlignPasses i s ∧ AddrPasses i s

/-- The number of deltas whose sign a command tests: MAXBITS_D, MAXBITS_DL and PACK_D (R222). -/
def deltasTestedBy : Instr → Option Nat
  | .maxbitsD => some 128
  | .maxbitsDL n => some n.toNat
  | .packD _ => some 128
  | _ => none

/-- The registers a command reads (10_state.md R21); `PKD_ADDR` is not read at width 0 (20_memory.md R67). -/
def registersReadBy : Instr → List RegName
  | .maxbits => [.blkAddr]
  | .maxbitsD => [.offset, .blkAddr]
  | .maxbitsDL _ => [.offset, .blkAddr]
  | .pack w => if w.toNat = 0 then [.blkAddr, .pkdLen] else [.blkAddr, .pkdAddr, .pkdLen]
  | .packM w => if w.toNat = 0 then [.blkAddr, .pkdLen] else [.blkAddr, .pkdAddr, .pkdLen]
  | .unpack w => if w.toNat = 0 then [.blkAddr, .pkdLen] else [.blkAddr, .pkdAddr, .pkdLen]
  | .packD w => if w.toNat = 0 then [.offset, .blkAddr, .pkdLen] else [.offset, .blkAddr, .pkdAddr, .pkdLen]
  | .unpackD w => if w.toNat = 0 then [.offset, .blkAddr, .pkdLen] else [.offset, .blkAddr, .pkdAddr, .pkdLen]
  | .searchD w _ => if w.toNat = 0 then [.offset, .key, .pkdLen] else [.offset, .key, .pkdAddr, .pkdLen]
  | .selectD w _ => if w.toNat = 0 then [.offset, .pkdLen] else [.offset, .pkdAddr, .pkdLen]

/-- The result registers a command writes when it completes (10_state.md R21, R30). -/
def resultsOf : Instr → List RegName
  | .maxbits => [.res0]
  | .maxbitsD => [.res0]
  | .maxbitsDL _ => [.res0]
  | .searchD _ _ => [.res0, .res1]
  | .selectD _ _ => [.res0]
  | _ => []

/-- The source buffer of a command: its first address and its size (20_memory.md R76, R85). -/
def sourceOf (i : Instr) (s : State) : Nat × Nat :=
  match i with
  | .maxbits => (s.blkAddr.toNat, 512)
  | .maxbitsD => (s.blkAddr.toNat, 512)
  | .maxbitsDL n => (s.blkAddr.toNat, 4 * n.toNat)
  | .pack _ => (s.blkAddr.toNat, 512)
  | .packM _ => (s.blkAddr.toNat, 512)
  | .packD _ => (s.blkAddr.toNat, 512)
  | .unpack w => (s.pkdAddr.toNat, 16 * w.toNat)
  | .unpackD w => (s.pkdAddr.toNat, 16 * w.toNat)
  | .searchD w _ => (s.pkdAddr.toNat, 16 * w.toNat)
  | .selectD w _ => (s.pkdAddr.toNat, 16 * w.toNat)

/-- The destination buffer of a command: its first address and its size (20_memory.md R76; 00_scope.md R18). -/
def destinationOf (i : Instr) (s : State) : Nat × Nat :=
  match i with
  | .pack w => (s.pkdAddr.toNat, 16 * w.toNat)
  | .packM w => (s.pkdAddr.toNat, 16 * w.toNat)
  | .packD w => (s.pkdAddr.toNat, 16 * w.toNat)
  | .unpack _ => (s.blkAddr.toNat, 512)
  | .unpackD _ => (s.blkAddr.toNat, 512)
  | _ => (0, 0)

/-- The fault codes a command can raise (60_exceptions.md R212). -/
def faultsOf : Instr → List ErrCode
  | .maxbits => [.errAlign, .errAddr]
  | .maxbitsD => [.errAlign, .errAddr, .errOrder]
  | .maxbitsDL _ => [.errArg, .errAlign, .errAddr, .errOrder]
  | .pack _ => [.errWidth, .errSize, .errAlign, .errAddr]
  | .packM _ => [.errWidth, .errSize, .errAlign, .errAddr]
  | .unpack _ => [.errWidth, .errSize, .errAlign, .errAddr]
  | .packD _ => [.errWidth, .errSize, .errAlign, .errAddr, .errOrder]
  | .unpackD _ => [.errWidth, .errSize, .errAlign, .errAddr, .errRange]
  | .searchD _ _ => [.errWidth, .errArg, .errSize, .errAlign, .errAddr, .errRange]
  | .selectD _ _ => [.errWidth, .errArg, .errSize, .errAlign, .errAddr, .errRange]

/-- The address lies in a buffer given by its first address and its size. -/
def InBuffer (r : Nat × Nat) (a : Nat) : Prop := r.1 ≤ a ∧ a < r.1 + r.2

/-- Two states a command cannot tell apart (10_state.md R31): the same existing addresses, the same registers
that it reads, the same bytes in its source buffer, and the same free values to come. -/
def SameInputs (i : Instr) (s s' : State) : Prop :=
  s.backed = s'.backed ∧ s.draws = s'.draws ∧ (∀ r ∈ registersReadBy i, s.reg r = s'.reg r) ∧
  ∀ a, InBuffer (sourceOf i s) a → s.mem.read a = s'.mem.read a

/-- `idx` is the first of the `n` reconstructed values that is not less than `KEY` (43_search_select.md
R191). -/
def FirstAtLeastKey (s : State) (b n idx : Nat) : Prop :=
  idx < n ∧ s.key.toNat ≤ s.sumAt b idx ∧ ∀ j, j < idx → s.sumAt b j < s.key.toNat

/-- The words that are no command of a core with or without the masked packer (30_encoding.md R96). -/
def IllegalWord (masked : Bool) (v : Word) : Prop :=
  field v 0 8 = 0 ∨ (if masked then 0x0B else 0x0A) ≤ field v 0 8 ∨
  field v 14 2 ≠ 0 ∨ field v 24 8 ≠ 0 ∨
  (field v 0 8 ∈ [0x01, 0x02, 0x03] ∧ field v 8 6 ≠ 0) ∨
  (field v 0 8 ∈ [0x01, 0x02, 0x04, 0x05, 0x06, 0x07, 0x0A] ∧ field v 16 8 ≠ 0)

/-- `t` is the state after a command, legal word or not, has run in `s` (30_encoding.md R90). -/
def AfterCommand (s t : State) : Prop := (∃ i, exec i s = .next t) ∨ ∃ v, executeWord v s = .next t

/-! ### Legal states -/

/-- `STATUS` as 10_state.md R24 lays it out: `STATE` is never 3, `ERR` is at most 8 and is 0 exactly when
`STATE` is not FAULT, and the reserved bits read 0. -/
abbrev StatusLegal (v : Word) : Prop :=
  statusState v ≤ 2 ∧ statusErr v ≤ 8 ∧ (statusErr v = 0 ↔ statusState v ≠ 2) ∧
  field v 2 2 = 0 ∧ field v 9 23 = 0

/-- `STATE` is IDLE only as long as no command has been written since reset (R24, R250): then `CMD`, `RES0`
and `RES1` still hold 0 and no fault is recorded. -/
abbrev State.IdleMeansFresh (s : State) : Prop :=
  statusState s.status = 0 → s.cmd = 0#32 ∧ s.res0 = 0#32 ∧ s.res1 = 0#32 ∧ statusSfault s.status = 0

/-- The legal states: the memory is canonical and lists only addresses that exist, `STATUS` is laid out as
R24 says, IDLE means that no command has run, and `CAP` is its constant (R32). -/
abbrev State.Legal (s : State) : Prop :=
  s.mem.wf = true ∧ (∀ c ∈ s.mem, s.AddressExists c.1) ∧ StatusLegal s.status ∧ s.IdleMeansFresh ∧
  s.cap = capValue Config.hasMaskedPack Config.layout

/-- A run has gone wrong when some command faulted since the host last cleared `SFAULT`
(70_reset_and_hazards.md R263). -/
abbrev State.GoneWrong (s : State) : Prop := statusSfault s.status = 1

end Sys2Proof.Machine
end

