-- ==== Sys2Proof/Certificates/Slice0/Obligations.lean ====
section
/-! DEFINITION. The statements about the machine, for the provers. Each names the rule of spec/ it comes from;
the vocabulary is that of Sys2Proof/Safety.lean. -/

open Sys2Proof Sys2Proof.Machine

/-! ### Encoding -/

/-- The example words of 30_encoding.md section 6 (R99) decode to the commands they stand for. -/
def Obligations.SampleCommandWordsDecode : Prop :=
  decode 0x00000206#32 = .ok (.packD 2) ∧ decode 0x000A0209#32 = .ok (.selectD 2 10) ∧
  decode 0x00800208#32 = .ok (.searchD 2 128) ∧ decode 0x00400003#32 = .ok (.maxbitsDL 64) ∧
  decode 0x00002005#32 = .ok (.unpack 32) ∧ decode 0x00000001#32 = .ok .maxbits ∧
  decode 0x0000000A#32 = .ok (.packM 0) ∧ decode 0x00000000#32 = .error .noRow

/-- R99: the number each command encodes to, for every value the fields hold. -/
def Obligations.EncodingsAreOpcodeAndFields : Prop :=
  (encode .maxbits).toNat = 0x01 ∧
  (encode .maxbitsD).toNat = 0x02 ∧
  (∀ n, (encode (.maxbitsDL n)).toNat = 0x03 + n.toNat * 2 ^ 16) ∧
  (∀ w, (encode (.pack w)).toNat = 0x04 + w.toNat * 2 ^ 8) ∧
  (∀ w, (encode (.unpack w)).toNat = 0x05 + w.toNat * 2 ^ 8) ∧
  (∀ w, (encode (.packD w)).toNat = 0x06 + w.toNat * 2 ^ 8) ∧
  (∀ w, (encode (.unpackD w)).toNat = 0x07 + w.toNat * 2 ^ 8) ∧
  (∀ w n, (encode (.searchD w n)).toNat = 0x08 + w.toNat * 2 ^ 8 + n.toNat * 2 ^ 16) ∧
  (∀ w n, (encode (.selectD w n)).toNat = 0x09 + w.toNat * 2 ^ 8 + n.toNat * 2 ^ 16) ∧
  (∀ w, (encode (.packM w)).toNat = 0x0A + w.toNat * 2 ^ 8)

/-- Decoding the word of a command gives the command back, with every operand at every value its field
holds (R90, R91, R95, R99). -/
def Obligations.DecodeOfEncodeIsIdentity : Prop := ∀ i : Instr, decode (encode i) = .ok i

/-- A word that decodes to a command is that command's encoding: no bit of the word is ignored (R92, R96). -/
def Obligations.EncodeOfDecodeIsIdentity : Prop := ∀ (v : Word) (i : Instr), decode v = .ok i → encode i = v

/-- R96: the words that match no row, with and without the masked packer, and what executing one does. -/
def Obligations.IllegalWordsRaiseErrOp : Prop :=
  (∀ masked v, decodeOn masked v = .error .noRow ↔ IllegalWord masked v) ∧
  ∀ v s, IllegalWord Config.hasMaskedPack v → executeWord v s = .next (s.raise .errOp)

/-- At most one row of the opcode map selects a word (R90, "the unique row"). -/
def Obligations.OpcodeRowsAreDisjoint : Prop :=
  ∀ (v : Word) (j k : Fin 10) (r r' : OpRow), (opRows true)[j.val]? = some r → (opRows true)[k.val]? = some r' →
    r.selects v = true → r'.selects v = true → j = k

/-- A command whose operands are legal never raises `ERR_WIDTH` or `ERR_ARG`, and one whose operands are not
raises one of the two in every state (R93, R94, R97). -/
def Obligations.IllFormedMeansOperandFault : Prop :=
  ∀ (i : Instr) (s t : State), exec i s = .next t →
    (i.wellFormed = false ↔ statusErr t.status = 2 ∨ statusErr t.status = 3)

/-! ### One step -/

/-- A step whose host action is a write of a command word to `CMD` stores the word and then is the command's
`exec` (10_state.md R23; 30_encoding.md R90). -/
def Obligations.CmdWriteRunsDecodedCommand : Prop :=
  ∀ (s : State) (v : Word) (rest : List HostAction) (i : Instr),
    s.script = .regWrite 0x00#32 v :: rest → decode v = .ok i →
    step s = exec i { s with cmd := v, script := rest }

/-- The encoding of any command, placed as the next host action, runs as that command (log entry 1). -/
def Obligations.FetchWordRunsNext : Prop :=
  ∀ (i : Instr) (s : State),
    step (s.withFetchWord 32 (encode i).toNat) = exec i { s with cmd := encode i }

/-- R34: a host register write, offset by offset. -/
def Obligations.HostRegisterWrites : Prop :=
  ∀ (s : State) (off v : Word) (rest : List HostAction), s.script = .regWrite off v :: rest →
    (off = 0x00#32 → step s = executeWord v { s with script := rest, cmd := v }) ∧
    (off = 0x04#32 → ∃ t, step s = .next t ∧ t = { s with script := rest, status := t.status } ∧
      statusSfault t.status = (if field v 8 1 = 1 then 0 else statusSfault s.status) ∧
      ∀ k, k ≠ 8 → t.status.getLsbD k = s.status.getLsbD k) ∧
    (off = 0x08#32 → step s = .next { s with script := rest, offset := v }) ∧
    (off = 0x0C#32 → step s = .next { s with script := rest, key := v }) ∧
    (off = 0x10#32 → step s = .next { s with script := rest, blkAddr := v }) ∧
    (off = 0x14#32 → step s = .next { s with script := rest, pkdAddr := v }) ∧
    (off = 0x18#32 → step s = .next { s with script := rest, pkdLen := v }) ∧
    (off ∉ [0x00#32, 0x04#32, 0x08#32, 0x0C#32, 0x10#32, 0x14#32, 0x18#32] →
      step s = .next { s with script := rest }) ∧
    ∃ t, step s = .next t ∧ (off ≠ 0x00#32 →
      t.res0 = s.res0 ∧ t.res1 = s.res1 ∧ t.mem = s.mem ∧ statusState t.status = statusState s.status ∧
      statusErr t.status = statusErr s.status ∧ (statusSfault t.status = 1 → statusSfault s.status = 1))

/-- R33: a host register read gives the register at the offset, 0 at any other offset, and changes nothing
but what the host has been given. -/
def Obligations.HostRegisterReads : Prop :=
  ∀ (s : State) (off : Word) (rest : List HostAction), s.script = .regRead off :: rest →
    ∃ v : Word, step s = .next { s with script := rest, replies := .word v :: s.replies } ∧
      (off = 0x00#32 → v = s.cmd) ∧ (off = 0x04#32 → v = s.status) ∧ (off = 0x08#32 → v = s.offset) ∧
      (off = 0x0C#32 → v = s.key) ∧ (off = 0x10#32 → v = s.blkAddr) ∧ (off = 0x14#32 → v = s.pkdAddr) ∧
      (off = 0x18#32 → v = s.pkdLen) ∧ (off = 0x1C#32 → v = s.res0) ∧ (off = 0x20#32 → v = s.res1) ∧
      (off = 0x24#32 → v = s.cap) ∧
      (off ∉ [0x00#32, 0x04#32, 0x08#32, 0x0C#32, 0x10#32, 0x14#32, 0x18#32, 0x1C#32, 0x20#32, 0x24#32] →
        v = 0#32)

/-- 20_memory.md R62 and 70_reset_and_hazards.md R262: a host store of bytes that exist writes those bytes
and no others, a host load of bytes that exist gives them and changes nothing; an address that does not exist
stops the model, which is the model's choice (log entry 9). -/
def Obligations.HostMemoryLoadStore : Prop :=
  (∀ (s : State) (a : Word) (bs : List Byte) (rest : List HostAction), s.script = .store a bs :: rest →
    (s.BytesExist a.toNat bs.length → ∃ t, step s = .next t ∧ t = { s with script := rest, mem := t.mem } ∧
      (∀ j (h : j < bs.length), t.mem.read (a.toNat + j) = bs[j]) ∧
      ∀ c, c < a.toNat ∨ a.toNat + bs.length ≤ c → t.mem.read c = s.mem.read c) ∧
    (¬ s.BytesExist a.toNat bs.length → step s = .fault (.hostAddressNotBacked a))) ∧
  ∀ (s : State) (a : Word) (n : Nat) (rest : List HostAction), s.script = .load a n :: rest →
    (s.BytesExist a.toNat n → ∃ bs : List Byte, bs.length = n ∧
      step s = .next { s with script := rest, replies := .bytes bs :: s.replies } ∧
      ∀ j (h : j < bs.length), bs[j] = s.mem.read (a.toNat + j)) ∧
    (¬ s.BytesExist a.toNat n → step s = .fault (.hostAddressNotBacked a))

/-- R39, R250: reset puts every register at its reset value, leaves the data memory, and gives the state IDLE,
which no command gives. -/
def Obligations.ResetGivesResetValues : Prop :=
  (∀ (s : State) (rest : List HostAction), s.script = .reset :: rest →
    ∃ t, step s = .next t ∧ t.mem = s.mem ∧ t.backed = s.backed ∧ t.script = rest ∧
      (∀ r, t.reg r = if r = .cap then 0x00000001#32 else 0x00000000#32) ∧ statusState t.status = 0) ∧
  (∀ r, State.reset.reg r = if r = .cap then 0x00000001#32 else 0x00000000#32) ∧
  ∀ s t : State, AfterCommand s t → statusState t.status ≠ 0

/-- With no host action left the core holds its state: the model's reading of 60_exceptions.md R231 and
70_reset_and_hazards.md R263 (log entry 10). -/
def Obligations.IdleStepKeepsState : Prop := ∀ s : State, s.script = [] → step s = .next s

/-- R32: `CAP` reads 0x00000001 in every legal state, which are its two fields for this hardware, and a host
write of it does nothing. -/
def Obligations.CapReadsItsConstant : Prop :=
  (∀ s : State, s.Legal → s.regRead 0x24#32 = 0x00000001#32) ∧
  field (capValue Config.hasMaskedPack Config.layout) 0 1 = (if Config.hasMaskedPack then 1 else 0) ∧
  field (capValue Config.hasMaskedPack Config.layout) 1 1 = (if Config.layout = .lane4 then 1 else 0) ∧
  field (capValue Config.hasMaskedPack Config.layout) 2 30 = 0 ∧
  ∀ (v : Word) (s : State), hostRegWrite 0x24#32 v s = .next s

/-! ### Invariants -/

/-- The state after reset is legal. -/
def Obligations.LegalAtReset : Prop := State.reset.Legal

/-- Every step from a legal state leads to a legal state: canonical memory that lists only existing
addresses, `STATUS` as R24 lays it out, IDLE only before the first command, `CAP` constant. -/
def Obligations.StepKeepsLegal : Prop := ∀ s t : State, s.Legal → step s = .next t → t.Legal

/-- Two canonical memories that read alike are the same data (20_memory.md R60; log entry 2). -/
def Obligations.CanonicalMemoriesAreEqual : Prop :=
  ∀ m m' : Memory, m.wf = true → m'.wf = true → (∀ a, m.read a = m'.read a) → m = m'

/-! ### What every command does -/

/-- Every command ends, for every input, either completed or faulted (70_reset_and_hazards.md R265;
60_exceptions.md R213, R214). -/
def Obligations.EveryCommandCompletesOrFaults : Prop :=
  ∀ (i : Instr) (s : State), ∃ t, exec i s = .next t ∧
    ((statusState t.status = 1 ∧ statusErr t.status = 0) ∨ ∃ c, t = s.raise c)

/-- R214: a command that faults, a word that is no command among them, changes `STATUS` and nothing else:
`STATE` FAULT, `ERR` the code, `SFAULT` 1; every register, every byte of memory is as before. What entering
each fault puts into the three fields is said with the numbers of R211. -/
def Obligations.FaultChangesStatusOnly : Prop :=
  (∀ s t : State, AfterCommand s t → statusState t.status = 2 →
    t = { s with status := t.status } ∧ statusSfault t.status = 1 ∧ (∃ c : ErrCode, t = s.raise c) ∧
    field t.status 2 2 = field s.status 2 2 ∧ field t.status 9 23 = field s.status 9 23) ∧
  ∀ s : State,
    (∀ c, statusState (s.raise c).status = 2 ∧ statusSfault (s.raise c).status = 1 ∧
      s.raise c = { s with status := (s.raise c).status }) ∧
    statusErr (s.raise .errOp).status = 1 ∧ statusErr (s.raise .errWidth).status = 2 ∧
    statusErr (s.raise .errArg).status = 3 ∧ statusErr (s.raise .errSize).status = 4 ∧
    statusErr (s.raise .errAlign).status = 5 ∧ statusErr (s.raise .errAddr).status = 6 ∧
    statusErr (s.raise .errOrder).status = 7 ∧ statusErr (s.raise .errRange).status = 8

/-- R213: a command that does not fault sets `STATE` DONE and `ERR` 0 and leaves `SFAULT` and the reserved
bits. -/
def Obligations.CompletionSetsDone : Prop :=
  ∀ (i : Instr) (s t : State), exec i s = .next t → statusState t.status ≠ 2 →
    statusState t.status = 1 ∧ statusErr t.status = 0 ∧ statusSfault t.status = statusSfault s.status ∧
    field t.status 2 2 = field s.status 2 2 ∧ field t.status 9 23 = field s.status 9 23

/-- The frame of every command (10_state.md R21, R30; 00_scope.md R18): no operand register, neither `CMD`
nor `CAP`, nothing of the host's is changed; a result register only if it is one the command produces; a byte
of memory only inside the command's destination buffer. -/
def Obligations.CommandFrame : Prop :=
  ∀ (i : Instr) (s t : State), exec i s = .next t →
    t.cmd = s.cmd ∧ t.offset = s.offset ∧ t.key = s.key ∧ t.blkAddr = s.blkAddr ∧ t.pkdAddr = s.pkdAddr ∧
    t.pkdLen = s.pkdLen ∧ t.cap = s.cap ∧ t.backed = s.backed ∧ t.script = s.script ∧ t.replies = s.replies ∧
    (.res0 ∉ resultsOf i → t.res0 = s.res0) ∧ (.res1 ∉ resultsOf i → t.res1 = s.res1) ∧
    ∀ a, ¬ InBuffer (destinationOf i s) a → t.mem.read a = s.mem.read a

/-- R31: the outcome of a command depends only on its word, the registers it reads, its source bytes, the
existing addresses, and the free values; not on `RES0`, `RES1`, `STATUS`, `CMD` or any other byte. -/
def Obligations.OutcomeDependsOnInputsOnly : Prop :=
  ∀ (i : Instr) (s s' t t' : State), SameInputs i s s' → exec i s = .next t → exec i s' = .next t' →
    statusState t.status = statusState t'.status ∧ statusErr t.status = statusErr t'.status ∧
    (statusState t.status = 1 → (∀ r ∈ resultsOf i, t.reg r = t'.reg r) ∧
      ∀ a, InBuffer (destinationOf i s) a → t.mem.read a = t'.mem.read a)

/-- `SFAULT` stays 1 until the host clears it or resets (10_state.md R24; 60_exceptions.md R225). -/
def Obligations.SfaultIsSticky : Prop :=
  ∀ s t : State, s.GoneWrong → step s = .next t → s.script.head? ≠ some .reset →
    (∀ v, s.script.head? = some (.regWrite 0x04#32 v) → field v 8 1 = 0) → t.GoneWrong

/-- A command that faulted faults again with the same code when it is issued again (60_exceptions.md R210,
R225). -/
def Obligations.RepeatedFaultIsTheSame : Prop :=
  ∀ (i : Instr) (s : State) (c : ErrCode), exec i s = .next (s.raise c) →
    exec i (s.raise c) = .next (s.raise c)

/-! ### Faults -/

/-- A command raises only the codes the table of R212 gives it, and no command can raise both `ERR_ORDER`
and `ERR_RANGE`. -/
def Obligations.CommandsRaiseOnlyTheirFaults : Prop :=
  (∀ (i : Instr) (s : State) (c : ErrCode), exec i s = .next (s.raise c) → c ∈ faultsOf i) ∧
  ∀ i : Instr, ¬ (.errOrder ∈ faultsOf i ∧ .errRange ∈ faultsOf i)

/-- R221 with R216 to R220 and 20_memory.md R64 to R66: the first check in the order that fails is the fault
reported; when all of them pass the command completes or faults in its data. -/
def Obligations.ChecksInOrder : Prop :=
  (∀ (v : Word) (s : State), decode v = .error .noRow → executeWord v s = .next (s.raise .errOp)) ∧
  ∀ (i : Instr) (s : State),
    (¬ WidthPasses i → exec i s = .next (s.raise .errWidth)) ∧
    (WidthPasses i → ¬ ArgInRange i → exec i s = .next (s.raise .errArg)) ∧
    (WidthPasses i → ArgInRange i → ¬ SizePasses i s → exec i s = .next (s.raise .errSize)) ∧
    (WidthPasses i → ArgInRange i → SizePasses i s → ¬ AlignPasses i s →
      exec i s = .next (s.raise .errAlign)) ∧
    (WidthPasses i → ArgInRange i → SizePasses i s → AlignPasses i s → ¬ AddrPasses i s →
      exec i s = .next (s.raise .errAddr)) ∧
    (ChecksPass i s → ∃ t, exec i s = .next t ∧
      (statusState t.status = 1 ∨ t = s.raise .errOrder ∨ t = s.raise .errRange))

/-- R67: at width 0 the packed buffer's address is not looked at, whatever it holds. -/
def Obligations.WidthZeroIgnoresPackedAddress : Prop :=
  ∀ (i : Instr) (s : State) (a : Word), widthFieldOf i = some 0 →
    ∃ t, exec i s = .next t ∧ exec i { s with pkdAddr := a } = .next { t with pkdAddr := a } ∧
      (s.pkdLen ≠ 0#32 → ArgInRange i → t = s.raise .errSize)

/-- R222: `ERR_ORDER` is raised, once the checks have passed, exactly when a delta is negative, and by no
other command. -/
def Obligations.OrderFaultExactly : Prop :=
  (∀ (i : Instr) (n : Nat) (s : State), deltasTestedBy i = some n → ChecksPass i s →
    (exec i s = .next (s.raise .errOrder) ↔ ∃ j, j < n ∧ s.deltaAt j < 0)) ∧
  ∀ (i : Instr) (s : State), exec i s = .next (s.raise .errOrder) → deltasTestedBy i ≠ none

/-- R223: `ERR_RANGE` is raised, once the checks have passed, exactly when the value to be delivered is 2^32
or more, and by no other command. -/
def Obligations.RangeFaultExactly : Prop :=
  (∀ (w : WField) (s : State), ChecksPass (.unpackD w) s →
    (exec (.unpackD w) s = .next (s.raise .errRange) ↔ 2 ^ 32 ≤ s.sumAt w.toNat 127)) ∧
  (∀ (w : WField) (n : NField) (s : State), ChecksPass (.selectD w n) s →
    (exec (.selectD w n) s = .next (s.raise .errRange) ↔ 2 ^ 32 ≤ s.sumAt w.toNat n.toNat)) ∧
  (∀ (w : WField) (n : NField) (s : State), ChecksPass (.searchD w n) s →
    (exec (.searchD w n) s = .next (s.raise .errRange) ↔
      ∃ idx, FirstAtLeastKey s w.toNat n.toNat idx ∧ 2 ^ 32 ≤ s.sumAt w.toNat idx)) ∧
  ∀ (i : Instr) (s : State), exec i s = .next (s.raise .errRange) →
    (∃ w, i = .unpackD w) ∨ (∃ w n, i = .selectD w n) ∨ ∃ w n, i = .searchD w n

/-! ### The analyzer -/

/-- MAXBITS (40_analyzer.md R121): `RES0` is the least width that holds every element. -/
def Obligations.MaxbitsResult : Prop :=
  ∀ s : State, s.BlockUsable 512 →
    ∃ b, IsWidth s.elem 128 b ∧
      exec .maxbits s = .next { s with res0 := BitVec.ofNat 32 b, status := statusDone s.status }

/-- MAXBITS_D (R122): `RES0` is the least width that holds every delta, none being negative. -/
def Obligations.MaxbitsDResult : Prop :=
  ∀ s : State, s.BlockUsable 512 → (∀ j, j < 128 → 0 ≤ s.deltaAt j) →
    ∃ b, IsWidth (fun j => (s.deltaAt j).toNat) 128 b ∧
      exec .maxbitsD s = .next { s with res0 := BitVec.ofNat 32 b, status := statusDone s.status }

/-- MAXBITS_DL (R123; 20_memory.md R85): the same over the first `N` deltas; only their bytes need exist. -/
def Obligations.MaxbitsDLResult : Prop :=
  ∀ (n : NField) (s : State), 1 ≤ n.toNat → n.toNat ≤ 128 → s.BlockUsable (4 * n.toNat) →
    (∀ j, j < n.toNat → 0 ≤ s.deltaAt j) →
    ∃ b, IsWidth (fun j => (s.deltaAt j).toNat) n.toNat b ∧
      exec (.maxbitsDL n) s = .next { s with res0 := BitVec.ofNat 32 b, status := statusDone s.status }

/-- R124: MAXBITS_DL of 128 elements is MAXBITS_D, in every state. -/
def Obligations.MaxbitsDLOfFullBlock : Prop := ∀ s : State, exec (.maxbitsDL 128) s = exec .maxbitsD s

/-- R125: the analyzer's result is a legal width, every element (or delta) fits it and no smaller width does,
and it grows with the number of elements looked at. -/
def Obligations.AnalyzerWidthFits : Prop :=
  (∀ s t : State, exec .maxbits s = .next t → statusState t.status = 1 →
    t.res0.toNat ≤ 32 ∧ (∀ j, j < 128 → s.elem j < 2 ^ t.res0.toNat) ∧
    ∀ c, c < t.res0.toNat → ∃ j, j < 128 ∧ 2 ^ c ≤ s.elem j) ∧
  (∀ s t : State, exec .maxbitsD s = .next t → statusState t.status = 1 →
    t.res0.toNat ≤ 32 ∧ (∀ j, j < 128 → 0 ≤ s.deltaAt j ∧ s.deltaAt j < 2 ^ t.res0.toNat) ∧
    ∀ c, c < t.res0.toNat → ∃ j, j < 128 ∧ 2 ^ c ≤ s.deltaAt j) ∧
  ∀ (n m : NField) (s t u : State), n.toNat ≤ m.toNat →
    exec (.maxbitsDL n) s = .next t → exec (.maxbitsDL m) s = .next u →
    statusState t.status = 1 → statusState u.status = 1 → t.res0.toNat ≤ u.res0.toNat

/-! ### Packing and unpacking -/

/-- PACK of values that fit (41_pack_unpack.md R141): every bit at its place, every other byte as before,
no register but `STATUS` changed. -/
def Obligations.PackResult : Prop :=
  ∀ (w : WField) (s : State), s.BlockUsable 512 → s.PackedUsable w.toNat →
    (∀ i, i < 128 → s.elem i < 2 ^ w.toNat) →
    ∃ t, exec (.pack w) s = .next t ∧ CompletesInMemory s t ∧ StoresPacked s t w.toNat s.elem

/-- PACK_M (R144): the same for the low `W` bits of every element, whatever the elements are. -/
def Obligations.PackMResult : Prop :=
  ∀ (w : WField) (s : State), s.BlockUsable 512 → s.PackedUsable w.toNat →
    ∃ t, exec (.packM w) s = .next t ∧ CompletesInMemory s t ∧
      StoresPacked s t w.toNat (fun i => s.elem i % 2 ^ w.toNat)

/-- PACK_D of deltas that fit (42_delta.md R171). -/
def Obligations.PackDResult : Prop :=
  ∀ (w : WField) (s : State), s.BlockUsable 512 → s.PackedUsable w.toNat →
    (∀ i, i < 128 → 0 ≤ s.deltaAt i ∧ s.deltaAt i < 2 ^ w.toNat) →
    ∃ t, exec (.packD w) s = .next t ∧ CompletesInMemory s t ∧
      StoresPacked s t w.toNat (fun i => (s.deltaAt i).toNat)

/-- R143: PACK of an element, or PACK_D of a delta, that does not fit raises no fault and completes; only the
`16*W` bytes of the packed buffer can change, nothing is said of what they hold, and no register but `STATUS`
changes (the counter `draws` is the model's own, log entry 4). -/
def Obligations.UnfitPackCompletes : Prop :=
  ∀ (w : WField) (s : State), s.BlockUsable 512 → s.PackedUsable w.toNat →
    ((∃ i, i < 128 ∧ 2 ^ w.toNat ≤ s.elem i) →
      ∃ t, exec (.pack w) s = .next t ∧
        t = { s with mem := t.mem, draws := t.draws, status := statusDone s.status } ∧
        ∀ a, ¬ InBuffer (s.pkdAddr.toNat, 16 * w.toNat) a → t.mem.read a = s.mem.read a) ∧
    ((∀ i, i < 128 → 0 ≤ s.deltaAt i) → (∃ i, i < 128 ∧ 2 ^ w.toNat ≤ s.deltaAt i) →
      ∃ t, exec (.packD w) s = .next t ∧
        t = { s with mem := t.mem, draws := t.draws, status := statusDone s.status } ∧
        ∀ a, ¬ InBuffer (s.pkdAddr.toNat, 16 * w.toNat) a → t.mem.read a = s.mem.read a)

/-- UNPACK (41_pack_unpack.md R145): 128 elements, each the `W` bits of its place, whatever the packed buffer
holds. -/
def Obligations.UnpackResult : Prop :=
  ∀ (w : WField) (s : State), s.BlockUsable 512 → s.PackedUsable w.toNat →
    ∃ t, exec (.unpack w) s = .next t ∧ CompletesInMemory s t ∧ StoresBlock s t (s.packedElem w.toNat)

/-- UNPACK_D (42_delta.md R173): 128 running sums from `OFFSET`, when the last is less than 2^32. -/
def Obligations.UnpackDResult : Prop :=
  ∀ (w : WField) (s : State), s.BlockUsable 512 → s.PackedUsable w.toNat → s.sumAt w.toNat 127 < 2 ^ 32 →
    ∃ t, exec (.unpackD w) s = .next t ∧ CompletesInMemory s t ∧ StoresBlock s t (s.sumAt w.toNat)

/-- R142 and R172: when the width of the deltas is 0, and what the commands of width 0 do. -/
def Obligations.WidthZeroCommands : Prop :=
  (∀ s : State, s.BlockUsable 512 → (∀ i, i < 128 → 0 ≤ s.deltaAt i) →
    ∃ t, exec .maxbitsD s = .next t ∧
      (t.res0 = 0#32 ↔ ∀ i, i < 128 → s.elem i = s.offset.toNat)) ∧
  (∀ s : State, s.pkdLen ≠ 0#32 → ∀ i ∈ [Instr.pack 0, .packM 0, .packD 0, .unpackD 0],
    exec i s = .next (s.raise .errSize)) ∧
  ∀ s : State, s.BlockUsable 512 → s.pkdLen = 0#32 →
    exec (.pack 0) s = .next { s with status := statusDone s.status } ∧
    exec (.packM 0) s = .next { s with status := statusDone s.status } ∧
    ((∀ i, i < 128 → 0 ≤ s.deltaAt i) →
      exec (.packD 0) s = .next { s with status := statusDone s.status }) ∧
    ((∃ i, i < 128 ∧ s.deltaAt i < 0) → exec (.packD 0) s = .next (s.raise .errOrder)) ∧
    ∃ t, exec (.unpackD 0) s = .next t ∧ CompletesInMemory s t ∧ StoresBlock s t (fun _ => s.offset.toNat)

/-! ### Search and select -/

/-- SEARCH_D that finds (43_search_select.md R191): the least index whose value is not less than `KEY`, and
that value. -/
def Obligations.SearchDFound : Prop :=
  ∀ (w : WField) (n : NField) (s : State) (idx : Nat), 1 ≤ n.toNat → n.toNat ≤ 128 →
    s.PackedUsable w.toNat → FirstAtLeastKey s w.toNat n.toNat idx → s.sumAt w.toNat idx < 2 ^ 32 →
    exec (.searchD w n) s = .next { s with
      res0 := BitVec.ofNat 32 idx
      res1 := BitVec.ofNat 32 (s.sumAt w.toNat idx)
      status := statusDone s.status }

/-- SEARCH_D that does not find (R191, R192): `RES0` is `N`, nothing is said of `RES1`, and it is no fault
(the counter `draws` is the model's own, log entry 5). -/
def Obligations.SearchDNotFound : Prop :=
  ∀ (w : WField) (n : NField) (s : State), 1 ≤ n.toNat → n.toNat ≤ 128 → s.PackedUsable w.toNat →
    (∀ j, j < n.toNat → s.sumAt w.toNat j < s.key.toNat) →
    ∃ t, exec (.searchD w n) s = .next t ∧
      t = { s with
        res0 := BitVec.ofNat 32 n.toNat
        res1 := t.res1
        draws := t.draws
        status := statusDone s.status }

/-- SELECT_D (R194): `RES0` is the reconstructed value at the index; values beyond it do not matter. -/
def Obligations.SelectDResult : Prop :=
  ∀ (w : WField) (n : NField) (s : State), n.toNat ≤ 127 → s.PackedUsable w.toNat →
    s.sumAt w.toNat n.toNat < 2 ^ 32 →
    exec (.selectD w n) s = .next { s with
      res0 := BitVec.ofNat 32 (s.sumAt w.toNat n.toNat)
      status := statusDone s.status }

/-! ### Laws of the layout -/

/-- R71 for either layout: every bit of `b` words is the place of exactly one bit of one element. -/
def Obligations.BitPositionsAreBijective : Prop :=
  ∀ (l : Layout) (b : Nat), 1 ≤ b → b ≤ 32 →
    (∀ i k, i < 128 → k < b → (bitPos l b i k).word < b ∧ (bitPos l b i k).bit < 128) ∧
    (∀ i k i' k', i < 128 → k < b → i' < 128 → k' < b → bitPos l b i k = bitPos l b i' k' → i = i' ∧ k = k') ∧
    ∀ w c, w < b → c < 128 → ∃ i k, i < 128 ∧ k < b ∧ bitPos l b i k = ⟨w, c⟩

/-- R72 and R73 for either layout: packed words hold bit `k` of value `i` at its position, and unpacking
reads it back from there. -/
def Obligations.PackedBitsAtTheirPositions : Prop :=
  ∀ (l : Layout) (b : Nat), 1 ≤ b → b ≤ 32 →
    (∀ vs : List Nat, vs.length = 128 → (∀ v ∈ vs, v < 2 ^ b) → ∀ i k, i < 128 → k < b →
      ((packWords l b vs).getD (bitPos l b i k).word 0#128).getLsbD (bitPos l b i k).bit
        = (vs.getD i 0).testBit k) ∧
    ∀ ws : List PackedWord, ws.length = b → ∀ i k, i < 128 → k < b →
      ((unpackWords l b ws).getD i 0).testBit k
        = (ws.getD (bitPos l b i k).word 0#128).getLsbD (bitPos l b i k).bit

/-- R75 laws 1 to 3 for either layout: packing and unpacking are inverse, and `b` words come of it. -/
def Obligations.PackUnpackInverse : Prop :=
  ∀ (l : Layout) (b : Nat), b ≤ 32 →
    (∀ vs : List Nat, vs.length = 128 → (∀ v ∈ vs, v < 2 ^ b) →
      (packWords l b vs).length = b ∧ unpackWords l b (packWords l b vs) = vs) ∧
    ∀ ws : List PackedWord, ws.length = b →
      (∀ v ∈ unpackWords l b ws, v < 2 ^ b) ∧ packWords l b (unpackWords l b ws) = ws

/-- R75 law 4: the layouts give the same words at width 32, four elements to a word in order. In place of law
5 (the layouts agree on every constant block), which R71 and R74 contradict, the exact condition under which
they agree on the block of `c`: the bits of `c`, repeated every `b`, also repeat every 32 (log entry 16). -/
def Obligations.LayoutsCoincide : Prop :=
  (∀ vs : List Nat, vs.length = 128 → (∀ v ∈ vs, v < 2 ^ 32) →
    packWords .horizontal 32 vs = packWords .lane4 32 vs ∧
    ∀ w, w < 32 → ((packWords .horizontal 32 vs).getD w 0#128).toNat =
      vs.getD (4 * w) 0 + 2 ^ 32 * vs.getD (4 * w + 1) 0 + 2 ^ 64 * vs.getD (4 * w + 2) 0
        + 2 ^ 96 * vs.getD (4 * w + 3) 0) ∧
  ∀ b c, b ≤ 32 → c < 2 ^ b →
    (packWords .horizontal b (List.replicate 128 c) = packWords .lane4 b (List.replicate 128 c) ↔
      ∀ k, k < b → c.testBit k = c.testBit ((k + 32) % b))

/-- R75 law 6: an unpacked value depends on two words only. -/
def Obligations.UnpackedValueDependsOnTwoWords : Prop :=
  ∀ (b i : Nat) (ws ws' : List PackedWord), 1 ≤ b → b ≤ 32 → i < 128 → ws.length = b → ws'.length = b →
    (ws.getD (i * b / 128) 0#128 = ws'.getD (i * b / 128) 0#128 →
      ws.getD ((i * b + b - 1) / 128) 0#128 = ws'.getD ((i * b + b - 1) / 128) 0#128 →
      (unpackWords .horizontal b ws).getD i 0 = (unpackWords .horizontal b ws').getD i 0) ∧
    (ws.getD (i / 4 * b / 32) 0#128 = ws'.getD (i / 4 * b / 32) 0#128 →
      ws.getD ((i / 4 * b + b - 1) / 32) 0#128 = ws'.getD ((i / 4 * b + b - 1) / 32) 0#128 →
      (unpackWords .lane4 b ws).getD i 0 = (unpackWords .lane4 b ws').getD i 0)

/-! ### Laws across commands -/

/-- R146: UNPACK after PACK on the same packed buffer, into any block buffer, stores the block, at every
width every element fits; after PACK_M, the block cut to `W` bits. -/
def Obligations.RawRoundTrip : Prop :=
  ∀ (w : WField) (s : State), s.BlockUsable 512 → s.PackedUsable w.toNat →
    ((∀ i, i < 128 → s.elem i < 2 ^ w.toNat) →
      ∃ t, exec (.pack w) s = .next t ∧ statusState t.status = 1 ∧
        ∀ a : Word, State.BlockUsable { t with blkAddr := a } 512 →
          ∃ u, exec (.unpack w) { t with blkAddr := a } = .next u ∧ statusState u.status = 1 ∧
            StoresBlock { t with blkAddr := a } u s.elem) ∧
    ∃ t, exec (.packM w) s = .next t ∧ statusState t.status = 1 ∧
      ∀ a : Word, State.BlockUsable { t with blkAddr := a } 512 →
        ∃ u, exec (.unpack w) { t with blkAddr := a } = .next u ∧ statusState u.status = 1 ∧
          StoresBlock { t with blkAddr := a } u (fun i => s.elem i % 2 ^ w.toNat)

/-- R175: UNPACK_D after PACK_D with the same offset stores the block, at every width all deltas fit. -/
def Obligations.DeltaRoundTrip : Prop :=
  ∀ (w : WField) (s : State), s.BlockUsable 512 → s.PackedUsable w.toNat →
    (∀ i, i < 128 → 0 ≤ s.deltaAt i ∧ s.deltaAt i < 2 ^ w.toNat) →
    ∃ t, exec (.packD w) s = .next t ∧ statusState t.status = 1 ∧
      ∀ a : Word, State.BlockUsable { t with blkAddr := a } 512 →
        ∃ u, exec (.unpackD w) { t with blkAddr := a } = .next u ∧ statusState u.status = 1 ∧
          StoresBlock { t with blkAddr := a } u s.elem

/-- R195: SELECT_D after PACK_D gives the element at the index. -/
def Obligations.SelectAgreement : Prop :=
  ∀ (w : WField) (s : State), s.BlockUsable 512 → s.PackedUsable w.toNat →
    (∀ i, i < 128 → 0 ≤ s.deltaAt i ∧ s.deltaAt i < 2 ^ w.toNat) →
    ∃ t, exec (.packD w) s = .next t ∧ statusState t.status = 1 ∧
      ∀ n : NField, n.toNat ≤ 127 →
        ∃ u, exec (.selectD w n) t = .next u ∧ statusState u.status = 1 ∧ u.res0.toNat = s.elem n.toNat

/-- R196: SEARCH_D after PACK_D gives the least index below `N` whose element is not less than the key, with
that element, or `N` if there is none. -/
def Obligations.LowerBoundLaw : Prop :=
  ∀ (w : WField) (s : State), s.BlockUsable 512 → s.PackedUsable w.toNat →
    (∀ i, i < 128 → 0 ≤ s.deltaAt i ∧ s.deltaAt i < 2 ^ w.toNat) →
    ∃ t, exec (.packD w) s = .next t ∧ statusState t.status = 1 ∧
      ∀ (n : NField) (key : Word), 1 ≤ n.toNat → n.toNat ≤ 128 →
        ∃ u, exec (.searchD w n) { t with key := key } = .next u ∧ statusState u.status = 1 ∧
          u.res0.toNat ≤ n.toNat ∧ (∀ j, j < u.res0.toNat → s.elem j < key.toNat) ∧
          (u.res0.toNat < n.toNat →
            key.toNat ≤ s.elem u.res0.toNat ∧ u.res1.toNat = s.elem u.res0.toNat)

/-- R197: for one packed buffer, offset and width, what UNPACK_D stores at an index, what SELECT_D gives for
it and what a SEARCH_D that finds it gives are one number, whenever the commands complete; and, where the
block buffer passes its checks, UNPACK_D raises `ERR_RANGE` exactly when SELECT_D of 127 does. -/
def Obligations.ReadersAgree : Prop :=
  ∀ (w : WField) (s : State),
    (∀ (n : NField) (t u : State), exec (.unpackD w) s = .next t → exec (.selectD w n) s = .next u →
      statusState t.status = 1 → statusState u.status = 1 → t.elem n.toNat = u.res0.toNat) ∧
    (∀ (n i : NField) (u v : State), exec (.selectD w i) s = .next u → exec (.searchD w n) s = .next v →
      statusState u.status = 1 → statusState v.status = 1 → v.res0.toNat = i.toNat → i.toNat < n.toNat →
      u.res0 = v.res1) ∧
    (s.BlockUsable 512 →
      (exec (.unpackD w) s = .next (s.raise .errRange) ↔ exec (.selectD w 127) s = .next (s.raise .errRange)))

/-! ### Byte order -/

/-- R68, R69: the bytes that make an element and a packed word, least significant first, each at its own
address; a number read is made of its bytes and no more, and a number stored is read back from its bytes so
(00_scope.md R12). -/
def Obligations.BuffersAreLittleEndian : Prop :=
  (∀ (s : State) (i : Nat), s.elem i < 2 ^ 32 ∧ ∀ j, j < 4 →
    (s.mem.read (s.blkAddr.toNat + 4 * i + j)).toNat = s.elem i / 2 ^ (8 * j) % 2 ^ 8) ∧
  (∀ (s : State) (w : Nat), s.packedWordAt w < 2 ^ 128 ∧ ∀ j, j < 16 →
    (s.mem.read (s.pkdAddr.toNat + 16 * w + j)).toNat = s.packedWordAt w / 2 ^ (8 * j) % 2 ^ 8) ∧
  (∀ (m : Memory) (a i : Nat) (xs : List Nat), i < xs.length → ∀ j, j < 4 →
    ((m.storeBlock a xs).read (a + 4 * i + j)).toNat = xs.getD i 0 / 2 ^ (8 * j) % 2 ^ 8) ∧
  ∀ (m : Memory) (a w : Nat) (ws : List PackedWord), w < ws.length → ∀ j, j < 16 →
    ((m.storePacked a ws).read (a + 16 * w + j)).toNat = (ws.getD w 0#128).toNat / 2 ^ (8 * j) % 2 ^ 8
end

