-- ==== Sys2Proof/Laws/Flags.lean ====
section
/-! SUPPORT. What completing, faulting and clearing do to each field of `STATUS`
(spec/10_state.md R24; 60_exceptions.md R213, R214). -/

namespace Sys2Proof.Machine

theorem ErrCode.code_pos (c : ErrCode) : 1 ≤ c.code := by cases c <;> decide

theorem ErrCode.code_le (c : ErrCode) : c.code ≤ 8 := by cases c <;> decide

theorem ErrCode.code_injective {c d : ErrCode} (h : c.code = d.code) : c = d := by
  revert h; cases c <;> cases d <;> decide

/-- The number of a word with one field replaced. -/
theorem toNat_setField (v : Word) (lo len x : Nat) (hx : x < 2 ^ len) (hl : lo + len ≤ 32) :
    (setField v lo len x).toNat = v.toNat - field v lo len * 2 ^ lo + x * 2 ^ lo := by
  have hv : v.toNat < 2 ^ 32 := v.isLt
  have hp : 2 ^ (lo + len) * 2 ^ (32 - (lo + len)) = 2 ^ 32 := by rw [← pow_add]; congr 1; omega
  have hpl : 2 ^ (lo + len) = 2 ^ lo * 2 ^ len := pow_add 2 lo len
  have hlo : 0 < 2 ^ lo := Nat.two_pow_pos lo
  rw [setField, BitVec.toNat_ofNat, Nat.mod_eq_of_lt]
  have e1 : v.toNat = v.toNat % 2 ^ lo + 2 ^ lo * (v.toNat / 2 ^ lo) := (Nat.mod_add_div _ _).symm
  have e2 : v.toNat / 2 ^ lo = v.toNat / 2 ^ lo % 2 ^ len + 2 ^ len * (v.toNat / 2 ^ lo / 2 ^ len) :=
    (Nat.mod_add_div _ _).symm
  have e3 : v.toNat / 2 ^ lo / 2 ^ len = v.toNat / 2 ^ (lo + len) := by rw [Nat.div_div_eq_div_mul, hpl]
  have h4 : v.toNat / 2 ^ (lo + len) < 2 ^ (32 - (lo + len)) := by
    rw [Nat.div_lt_iff_lt_mul (Nat.two_pow_pos _), Nat.mul_comm, hp]; exact hv
  have h5 : v.toNat % 2 ^ lo < 2 ^ lo := Nat.mod_lt _ hlo
  unfold field
  generalize v.toNat / 2 ^ lo % 2 ^ len = f at *
  generalize v.toNat % 2 ^ lo = r at *
  rw [e3] at e2
  generalize v.toNat / 2 ^ (lo + len) = q at *
  rw [e2] at e1
  have e6 : v.toNat - f * 2 ^ lo = r + 2 ^ lo * 2 ^ len * q := by
    rw [e1, Nat.mul_add, Nat.mul_comm f, ← Nat.mul_assoc]; omega
  rw [e6]
  calc r + 2 ^ lo * 2 ^ len * q + x * 2 ^ lo
      < 2 ^ lo + x * 2 ^ lo + 2 ^ lo * 2 ^ len * q := by omega
    _ = (x + 1) * 2 ^ lo + 2 ^ lo * 2 ^ len * q := by ring
    _ ≤ 2 ^ len * 2 ^ lo + 2 ^ lo * 2 ^ len * q := by gcongr; omega
    _ = 2 ^ (lo + len) * (q + 1) := by rw [hpl]; ring
    _ ≤ 2 ^ (lo + len) * 2 ^ (32 - (lo + len)) := by gcongr; omega
    _ = 2 ^ 32 := hp

/-- The number `STATUS` becomes on completion. -/
theorem toNat_statusDone (v : Word) :
    (statusDone v).toNat = v.toNat / 512 * 512 + v.toNat / 256 % 2 * 256 + v.toNat / 4 % 4 * 4 + 1 := by
  rw [statusDone, toNat_setField _ 4 4 0 (by norm_num) (by norm_num), field,
    toNat_setField _ 0 2 1 (by norm_num) (by norm_num), field]
  norm_num
  omega

/-- The number `STATUS` becomes on a fault. -/
theorem toNat_statusFault (c : ErrCode) (v : Word) :
    (statusFault c v).toNat = v.toNat / 512 * 512 + 256 + c.code * 16 + v.toNat / 4 % 4 * 4 + 2 := by
  have h1 := c.code_le
  rw [statusFault, toNat_setField _ 8 1 1 (by norm_num) (by norm_num), field,
    toNat_setField _ 4 4 c.code (by omega) (by norm_num), field,
    toNat_setField _ 0 2 2 (by norm_num) (by norm_num), field]
  norm_num
  omega

/-- The number `STATUS` becomes when `SFAULT` is cleared. -/
theorem toNat_statusWritten (w v : Word) :
    (statusWritten w v).toNat =
      if w.toNat / 256 % 2 = 1 then v.toNat / 512 * 512 + v.toNat % 256 else v.toNat := by
  rw [statusWritten, field]
  norm_num
  split
  · rw [toNat_setField _ 8 1 0 (by norm_num) (by norm_num), field]
    norm_num
    omega
  · rfl

@[simp] theorem statusState_done (v : Word) : statusState (statusDone v) = 1 := by
  rw [statusState, field, toNat_statusDone]; norm_num; omega

@[simp] theorem statusErr_done (v : Word) : statusErr (statusDone v) = 0 := by
  rw [statusErr, field, toNat_statusDone]; norm_num; omega

@[simp] theorem statusSfault_done (v : Word) : statusSfault (statusDone v) = statusSfault v := by
  rw [statusSfault, statusSfault, field, field, toNat_statusDone]; norm_num; omega

@[simp] theorem statusState_fault (c : ErrCode) (v : Word) : statusState (statusFault c v) = 2 := by
  have h1 := c.code_le
  rw [statusState, field, toNat_statusFault]; norm_num; omega

@[simp] theorem statusErr_fault (c : ErrCode) (v : Word) : statusErr (statusFault c v) = c.code := by
  have h1 := c.code_le
  rw [statusErr, field, toNat_statusFault]; norm_num; omega

@[simp] theorem statusSfault_fault (c : ErrCode) (v : Word) : statusSfault (statusFault c v) = 1 := by
  have h1 := c.code_le
  rw [statusSfault, field, toNat_statusFault]; norm_num; omega

@[simp] theorem statusState_written (w v : Word) : statusState (statusWritten w v) = statusState v := by
  rw [statusState, statusState, field, field, toNat_statusWritten]; split <;> norm_num; omega

@[simp] theorem statusErr_written (w v : Word) : statusErr (statusWritten w v) = statusErr v := by
  rw [statusErr, statusErr, field, field, toNat_statusWritten]; split <;> norm_num; omega

theorem statusSfault_written (w v : Word) :
    statusSfault (statusWritten w v) = if field w 8 1 = 1 then 0 else statusSfault v := by
  rw [statusSfault, statusSfault, field, field, field, toNat_statusWritten]
  norm_num
  split <;> omega

/-- The reserved bits [3:2] are never written. -/
theorem reservedLow_done (v : Word) : field (statusDone v) 2 2 = field v 2 2 := by
  rw [field, field, toNat_statusDone]; norm_num; omega

theorem reservedLow_fault (c : ErrCode) (v : Word) : field (statusFault c v) 2 2 = field v 2 2 := by
  have h1 := c.code_le
  rw [field, field, toNat_statusFault]; norm_num; omega

theorem reservedLow_written (w v : Word) : field (statusWritten w v) 2 2 = field v 2 2 := by
  rw [field, field, toNat_statusWritten]; norm_num; split <;> omega

/-- The reserved bits [31:9] are never written. -/
theorem reservedHigh_done (v : Word) : field (statusDone v) 9 23 = field v 9 23 := by
  rw [field, field, toNat_statusDone]; norm_num; omega

theorem reservedHigh_fault (c : ErrCode) (v : Word) : field (statusFault c v) 9 23 = field v 9 23 := by
  have h1 := c.code_le
  rw [field, field, toNat_statusFault]; norm_num; omega

theorem reservedHigh_written (w v : Word) : field (statusWritten w v) 9 23 = field v 9 23 := by
  rw [field, field, toNat_statusWritten]; norm_num; split <;> omega

end Sys2Proof.Machine
end

