-- ==== Sys2Proof/Laws/Memory.lean ====
section
/-! SUPPORT. What the memory operations do: reads after writes, and that the canonical form is kept. -/

namespace Sys2Proof.Machine

@[simp] theorem Memory.read_nil (a : Nat) : Memory.read [] a = 0#8 := rfl

theorem Memory.read_cons (k a : Nat) (b : Byte) (m : Memory) :
    Memory.read ((k, b) :: m) a = if k = a then b else m.read a := rfl

theorem Memory.read_clearAt (m : Memory) (a c : Nat) :
    (m.clearAt a).read c = if c = a then 0#8 else m.read c := by
  induction m with
  | nil => simp [Memory.clearAt]
  | cons x rest ih =>
    obtain ⟨k, b⟩ := x
    have hcons : Memory.clearAt ((k, b) :: rest) a = if k = a then Memory.clearAt rest a else (k, b) :: Memory.clearAt rest a := by
      by_cases h : k = a <;> simp [Memory.clearAt, h]
    rw [hcons]
    by_cases hk : k = a
    · rw [if_pos hk, ih, Memory.read_cons]
      by_cases hc : c = a
      · simp [hc]
      · simp [hc, show k ≠ c by omega]
    · rw [if_neg hk, Memory.read_cons, Memory.read_cons, ih]
      by_cases hkc : k = c
      · simp [hkc, show c ≠ a by omega]
      · simp [hkc]

/-- No entry of the memory is for the address. -/
theorem Memory.mem_clearAt {m : Memory} {a : Nat} {c : Host.Cell} (h : c ∈ m.clearAt a) : c ∈ m ∧ c.1 ≠ a := by
  simpa [Memory.clearAt] using h

theorem Memory.read_enterAt (m : Memory) (a c : Nat) (b : Byte) (h : ∀ x ∈ m, x.1 ≠ a) :
    (m.enterAt a b).read c = if c = a then b else m.read c := by
  induction m with
  | nil => simp [Memory.enterAt, Memory.read_cons, eq_comm]
  | cons x rest ih =>
    obtain ⟨k, d⟩ := x
    have hk : k ≠ a := h (k, d) (by simp)
    have ih' := ih (fun x hx => h x (by simp [hx]))
    rw [Memory.enterAt]
    split
    · simp [Memory.read_cons, eq_comm]
    · rw [Memory.read_cons, Memory.read_cons, ih']
      by_cases hkc : k = c
      · simp [hkc, show c ≠ a by omega]
      · simp [hkc]

/-- A read after a write: the byte written at its address, every other byte as it was (20_memory.md R62). -/
theorem Memory.read_write (m : Memory) (a c : Nat) (b : Byte) :
    (m.write a b).read c = if c = a then b else m.read c := by
  unfold Memory.write
  split
  · next hb => rw [Memory.read_clearAt, hb]
  · rw [Memory.read_enterAt _ _ _ _ (fun x hx => (Memory.mem_clearAt hx).2), Memory.read_clearAt]
    by_cases hc : c = a <;> simp [hc]

theorem Memory.read_write_same (m : Memory) (a : Nat) (b : Byte) : (m.write a b).read a = b := by
  simp [Memory.read_write]

theorem Memory.read_write_other (m : Memory) {a c : Nat} (b : Byte) (h : c ≠ a) :
    (m.write a b).read c = m.read c := by
  simp [Memory.read_write, h]

/-! ### The canonical form -/

/-- The canonical form, said on the list as a whole. -/
theorem Memory.wf_iff (m : Memory) :
    m.wf = true ↔ m.Pairwise (fun x y => x.1 < y.1) ∧ ∀ x ∈ m, x.2 ≠ 0#8 := by
  induction m with
  | nil => simp [Memory.wf]
  | cons x rest ih =>
    obtain ⟨k, b⟩ := x
    cases rest with
    | nil => simp [Memory.wf]
    | cons y rest' =>
      obtain ⟨k', b'⟩ := y
      rw [Memory.wf, Bool.and_eq_true, Bool.and_eq_true, ih, List.pairwise_cons]
      simp only [List.pairwise_cons, List.mem_cons, forall_eq_or_imp, bne_iff_ne, ne_eq, decide_eq_true_eq]
      constructor
      · rintro ⟨⟨hb, hk⟩, ⟨h1, h2⟩, h3⟩
        exact ⟨⟨⟨hk, fun z hz => lt_trans hk (h1 z hz)⟩, h1, h2⟩, hb, h3⟩
      · rintro ⟨⟨⟨hk, _⟩, h1, h2⟩, hb, h3⟩
        exact ⟨⟨hb, hk⟩, ⟨h1, h2⟩, h3⟩

theorem Memory.mem_enterAt {m : Memory} {a : Nat} {b : Byte} {c : Host.Cell} (h : c ∈ m.enterAt a b) :
    c = (a, b) ∨ c ∈ m := by
  induction m with
  | nil => simpa [Memory.enterAt] using h
  | cons x rest ih =>
    obtain ⟨k, d⟩ := x
    rw [Memory.enterAt] at h
    split at h
    · simpa using h
    · rcases List.mem_cons.1 h with h | h
      · exact .inr (by simp [h])
      · rcases ih h with h | h
        · exact .inl h
        · exact .inr (by simp [h])

/-- What a write lists: what was listed, and at most the address written. -/
theorem Memory.mem_write {m : Memory} {a : Nat} {b : Byte} {c : Host.Cell} (h : c ∈ m.write a b) :
    c ∈ m ∨ c.1 = a := by
  unfold Memory.write at h
  split at h
  · exact .inl (Memory.mem_clearAt h).1
  · rcases Memory.mem_enterAt h with h | h
    · exact .inr (by simp [h])
    · exact .inl (Memory.mem_clearAt h).1

theorem Memory.wf_clearAt {m : Memory} (h : m.wf = true) (a : Nat) : (m.clearAt a).wf = true := by
  rw [Memory.wf_iff] at h ⊢
  exact ⟨h.1.filter _, fun x hx => h.2 x (Memory.mem_clearAt hx).1⟩

theorem Memory.wf_enterAt {m : Memory} (h : m.wf = true) (a : Nat) {b : Byte} (hb : b ≠ 0#8)
    (hn : ∀ x ∈ m, x.1 ≠ a) : (m.enterAt a b).wf = true := by
  rw [Memory.wf_iff] at h ⊢
  refine ⟨?_, fun x hx => ?_⟩
  · obtain ⟨hp, -⟩ := h
    induction m with
    | nil => simp [Memory.enterAt]
    | cons x rest ih =>
      obtain ⟨k, d⟩ := x
      have hka : k ≠ a := hn (k, d) (by simp)
      obtain ⟨h1, h2⟩ := List.pairwise_cons.1 hp
      rw [Memory.enterAt]
      split
      · next hlt =>
        refine List.pairwise_cons.2 ⟨fun y hy => ?_, hp⟩
        rcases List.mem_cons.1 hy with rfl | hy
        · exact hlt
        · exact lt_trans hlt (h1 y hy)
      · refine List.pairwise_cons.2 ⟨fun y hy => ?_, ih (fun x hx => hn x (by simp [hx])) h2⟩
        rcases Memory.mem_enterAt hy with rfl | hy
        · show k < a
          omega
        · exact h1 y hy
  · rcases Memory.mem_enterAt hx with rfl | hx
    · exact hb
    · exact h.2 x hx

/-- A write keeps the canonical form. -/
theorem Memory.wf_write {m : Memory} (h : m.wf = true) (a : Nat) (b : Byte) : (m.write a b).wf = true := by
  unfold Memory.write
  split
  · exact Memory.wf_clearAt h a
  · next hb => exact Memory.wf_enterAt (Memory.wf_clearAt h a) a hb (fun x hx => (Memory.mem_clearAt hx).2)

/-! ### Writes of several bytes -/

theorem Memory.wf_writeLE {m : Memory} (h : m.wf = true) (a n v : Nat) : (m.writeLE a n v).wf = true := by
  induction n generalizing m a v with
  | zero => exact h
  | succ n ih => exact ih (Memory.wf_write h _ _) _ _

theorem Memory.wf_writeBytes {m : Memory} (h : m.wf = true) (a : Nat) (bs : List Byte) :
    (m.writeBytes a bs).wf = true := by
  induction bs generalizing m a with
  | nil => exact h
  | cons b bs ih => exact ih (Memory.wf_write h _ _) _

theorem Memory.wf_storeBlock {m : Memory} (h : m.wf = true) (a : Nat) (xs : List Nat) :
    (m.storeBlock a xs).wf = true := by
  induction xs generalizing m a with
  | nil => exact h
  | cons x xs ih => exact ih (Memory.wf_writeLE h _ _ _) _

theorem Memory.wf_storePacked {m : Memory} (h : m.wf = true) (a : Nat) (ws : List PackedWord) :
    (m.storePacked a ws).wf = true := by
  induction ws generalizing m a with
  | nil => exact h
  | cons w ws ih => exact ih (Memory.wf_writeLE h _ _ _) _

theorem Memory.mem_writeLE {m : Memory} {a n v : Nat} {c : Host.Cell} (h : c ∈ m.writeLE a n v) :
    c ∈ m ∨ (a ≤ c.1 ∧ c.1 < a + n) := by
  induction n generalizing m a v with
  | zero => exact .inl h
  | succ n ih =>
    rcases ih h with h | h
    · rcases Memory.mem_write h with h | h
      · exact .inl h
      · exact .inr (by omega)
    · exact .inr (by omega)

theorem Memory.mem_writeBytes {m : Memory} {a : Nat} {bs : List Byte} {c : Host.Cell}
    (h : c ∈ m.writeBytes a bs) : c ∈ m ∨ (a ≤ c.1 ∧ c.1 < a + bs.length) := by
  induction bs generalizing m a with
  | nil => exact .inl h
  | cons b bs ih =>
    rw [List.length_cons]
    rcases ih h with h | h
    · rcases Memory.mem_write h with h | h
      · exact .inl h
      · exact .inr (by omega)
    · exact .inr (by omega)

theorem Memory.mem_storeBlock {m : Memory} {a : Nat} {xs : List Nat} {c : Host.Cell}
    (h : c ∈ m.storeBlock a xs) : c ∈ m ∨ (a ≤ c.1 ∧ c.1 < a + 4 * xs.length) := by
  induction xs generalizing m a with
  | nil => exact .inl h
  | cons x xs ih =>
    rw [List.length_cons]
    rcases ih h with h | h
    · rcases Memory.mem_writeLE h with h | h
      · exact .inl h
      · exact .inr (by omega)
    · exact .inr (by omega)

theorem Memory.mem_storePacked {m : Memory} {a : Nat} {ws : List PackedWord} {c : Host.Cell}
    (h : c ∈ m.storePacked a ws) : c ∈ m ∨ (a ≤ c.1 ∧ c.1 < a + 16 * ws.length) := by
  induction ws generalizing m a with
  | nil => exact .inl h
  | cons x ws ih =>
    rw [List.length_cons]
    rcases ih h with h | h
    · rcases Memory.mem_writeLE h with h | h
      · exact .inl h
      · exact .inr (by omega)
    · exact .inr (by omega)

/-! ### Reads outside and inside what was written -/

theorem Memory.read_writeLE_outside (m : Memory) (a n v c : Nat) (h : c < a ∨ a + n ≤ c) :
    (m.writeLE a n v).read c = m.read c := by
  induction n generalizing m a v with
  | zero => rfl
  | succ n ih =>
    rw [Memory.writeLE, ih _ _ _ (by omega), Memory.read_write_other _ _ (by omega)]

theorem Memory.read_writeBytes_outside (m : Memory) (a c : Nat) (bs : List Byte)
    (h : c < a ∨ a + bs.length ≤ c) : (m.writeBytes a bs).read c = m.read c := by
  induction bs generalizing m a with
  | nil => rfl
  | cons b bs ih =>
    rw [List.length_cons] at h
    rw [Memory.writeBytes, ih _ _ (by omega), Memory.read_write_other _ _ (by omega)]

theorem Memory.read_writeBytes_inside (m : Memory) (a j : Nat) (bs : List Byte) (h : j < bs.length) :
    (m.writeBytes a bs).read (a + j) = bs[j] := by
  induction bs generalizing m a j with
  | nil => simp at h
  | cons b bs ih =>
    rw [Memory.writeBytes]
    cases j with
    | zero =>
      rw [Memory.read_writeBytes_outside _ _ _ _ (by omega)]
      simpa using Memory.read_write_same m a b
    | succ j =>
      have := ih (m.write a b) (a + 1) j (by simpa using h)
      rw [show a + (j + 1) = a + 1 + j by omega, this]
      rfl

theorem Memory.read_storeBlock_outside (m : Memory) (a c : Nat) (xs : List Nat)
    (h : c < a ∨ a + 4 * xs.length ≤ c) : (m.storeBlock a xs).read c = m.read c := by
  induction xs generalizing m a with
  | nil => rfl
  | cons x xs ih =>
    rw [List.length_cons] at h
    rw [Memory.storeBlock, ih _ _ (by omega), Memory.read_writeLE_outside _ _ _ _ _ (by omega)]

theorem Memory.read_storePacked_outside (m : Memory) (a c : Nat) (ws : List PackedWord)
    (h : c < a ∨ a + 16 * ws.length ≤ c) : (m.storePacked a ws).read c = m.read c := by
  induction ws generalizing m a with
  | nil => rfl
  | cons x ws ih =>
    rw [List.length_cons] at h
    rw [Memory.storePacked, ih _ _ (by omega), Memory.read_writeLE_outside _ _ _ _ _ (by omega)]

/-- A multi-byte read depends on the bytes it reads only. -/
theorem Memory.readLE_congr {m m' : Memory} {a n : Nat}
    (h : ∀ c, a ≤ c → c < a + n → m.read c = m'.read c) : m.readLE a n = m'.readLE a n := by
  induction n generalizing a with
  | zero => rfl
  | succ n ih =>
    rw [Memory.readLE, Memory.readLE, h a (by omega) (by omega), ih (fun c h1 h2 => h c (by omega) (by omega))]

/-- A number read from `n` bytes is less than `256^n`. -/
theorem Memory.readLE_lt (m : Memory) (a n : Nat) : m.readLE a n < 256 ^ n := by
  induction n generalizing a with
  | zero => simp [Memory.readLE]
  | succ n ih =>
    have h1 := ih (a + 1)
    have h2 : (m.read a).toNat < 256 := (m.read a).isLt
    rw [Memory.readLE, Nat.pow_succ]
    omega

/-- A number read where it was written (R12). -/
theorem Memory.readLE_writeLE_same (m : Memory) (a n v : Nat) :
    (m.writeLE a n v).readLE a n = v % 256 ^ n := by
  induction n generalizing m a v with
  | zero => simp [Memory.readLE, Nat.mod_one]
  | succ n ih =>
    rw [Memory.readLE, Memory.writeLE, ih, Memory.read_writeLE_outside _ _ _ _ _ (by omega),
      Memory.read_write_same, BitVec.toNat_ofNat, show 256 ^ (n + 1) = 256 * 256 ^ n from Nat.pow_succ', Nat.mod_mul]

/-- Element `i` of a block just stored (R68). -/
theorem Memory.readLE_storeBlock (m : Memory) (a i : Nat) (xs : List Nat) (h : i < xs.length) :
    (m.storeBlock a xs).readLE (a + 4 * i) 4 = xs[i] % 2 ^ 32 := by
  induction xs generalizing m a i with
  | nil => simp at h
  | cons x xs ih =>
    rw [Memory.storeBlock]
    cases i with
    | zero =>
      rw [Memory.readLE_congr (m' := m.writeLE a 4 x)
        (fun c _ h2 => Memory.read_storeBlock_outside _ _ _ _ (by omega))]
      simpa using Memory.readLE_writeLE_same m a 4 x
    | succ i =>
      rw [show a + 4 * (i + 1) = a + 4 + 4 * i by omega, ih _ _ _ (by simpa using h)]
      rfl

/-- Word `w` of a packed buffer just stored (R69). -/
theorem Memory.readLE_storePacked (m : Memory) (a i : Nat) (ws : List PackedWord) (h : i < ws.length) :
    (m.storePacked a ws).readLE (a + 16 * i) 16 = (ws[i]).toNat := by
  induction ws generalizing m a i with
  | nil => simp at h
  | cons x ws ih =>
    rw [Memory.storePacked]
    cases i with
    | zero =>
      rw [Memory.readLE_congr (m' := m.writeLE a 16 x.toNat)
        (fun c _ h2 => Memory.read_storePacked_outside _ _ _ _ (by omega))]
      have hx : x.toNat < 256 ^ 16 := x.isLt
      rw [Nat.mul_zero, Nat.add_zero, Memory.readLE_writeLE_same, Nat.mod_eq_of_lt hx]
      rfl
    | succ i =>
      rw [show a + 16 * (i + 1) = a + 16 + 16 * i by omega, ih _ _ _ (by simpa using h)]
      rfl

end Sys2Proof.Machine
end

