-- ==== Sys2Proof/Laws/State.lean ====
section
/-! SUPPORT. What each named update of the state does to each field. -/

namespace Sys2Proof.Machine

/-! ### complete -/

@[simp] theorem State.complete_cmd (s : State) : s.complete.cmd = s.cmd := rfl
@[simp] theorem State.complete_status (s : State) : s.complete.status = statusDone s.status := rfl
@[simp] theorem State.complete_offset (s : State) : s.complete.offset = s.offset := rfl
@[simp] theorem State.complete_key (s : State) : s.complete.key = s.key := rfl
@[simp] theorem State.complete_blkAddr (s : State) : s.complete.blkAddr = s.blkAddr := rfl
@[simp] theorem State.complete_pkdAddr (s : State) : s.complete.pkdAddr = s.pkdAddr := rfl
@[simp] theorem State.complete_pkdLen (s : State) : s.complete.pkdLen = s.pkdLen := rfl
@[simp] theorem State.complete_res0 (s : State) : s.complete.res0 = s.res0 := rfl
@[simp] theorem State.complete_res1 (s : State) : s.complete.res1 = s.res1 := rfl
@[simp] theorem State.complete_cap (s : State) : s.complete.cap = s.cap := rfl
@[simp] theorem State.complete_mem (s : State) : s.complete.mem = s.mem := rfl
@[simp] theorem State.complete_backed (s : State) : s.complete.backed = s.backed := rfl
@[simp] theorem State.complete_draws (s : State) : s.complete.draws = s.draws := rfl
@[simp] theorem State.complete_script (s : State) : s.complete.script = s.script := rfl
@[simp] theorem State.complete_replies (s : State) : s.complete.replies = s.replies := rfl

/-! ### raise -/

@[simp] theorem State.raise_cmd (s : State) (c : ErrCode) : (s.raise c).cmd = s.cmd := rfl
@[simp] theorem State.raise_status (s : State) (c : ErrCode) :
    (s.raise c).status = statusFault c s.status := rfl
@[simp] theorem State.raise_offset (s : State) (c : ErrCode) : (s.raise c).offset = s.offset := rfl
@[simp] theorem State.raise_key (s : State) (c : ErrCode) : (s.raise c).key = s.key := rfl
@[simp] theorem State.raise_blkAddr (s : State) (c : ErrCode) : (s.raise c).blkAddr = s.blkAddr := rfl
@[simp] theorem State.raise_pkdAddr (s : State) (c : ErrCode) : (s.raise c).pkdAddr = s.pkdAddr := rfl
@[simp] theorem State.raise_pkdLen (s : State) (c : ErrCode) : (s.raise c).pkdLen = s.pkdLen := rfl
@[simp] theorem State.raise_res0 (s : State) (c : ErrCode) : (s.raise c).res0 = s.res0 := rfl
@[simp] theorem State.raise_res1 (s : State) (c : ErrCode) : (s.raise c).res1 = s.res1 := rfl
@[simp] theorem State.raise_cap (s : State) (c : ErrCode) : (s.raise c).cap = s.cap := rfl
@[simp] theorem State.raise_mem (s : State) (c : ErrCode) : (s.raise c).mem = s.mem := rfl
@[simp] theorem State.raise_backed (s : State) (c : ErrCode) : (s.raise c).backed = s.backed := rfl
@[simp] theorem State.raise_draws (s : State) (c : ErrCode) : (s.raise c).draws = s.draws := rfl
@[simp] theorem State.raise_script (s : State) (c : ErrCode) : (s.raise c).script = s.script := rfl
@[simp] theorem State.raise_replies (s : State) (c : ErrCode) : (s.raise c).replies = s.replies := rfl

/-! ### reply -/

@[simp] theorem State.reply_cmd (s : State) (r : HostReply) : (s.reply r).cmd = s.cmd := rfl
@[simp] theorem State.reply_status (s : State) (r : HostReply) : (s.reply r).status = s.status := rfl
@[simp] theorem State.reply_offset (s : State) (r : HostReply) : (s.reply r).offset = s.offset := rfl
@[simp] theorem State.reply_key (s : State) (r : HostReply) : (s.reply r).key = s.key := rfl
@[simp] theorem State.reply_blkAddr (s : State) (r : HostReply) : (s.reply r).blkAddr = s.blkAddr := rfl
@[simp] theorem State.reply_pkdAddr (s : State) (r : HostReply) : (s.reply r).pkdAddr = s.pkdAddr := rfl
@[simp] theorem State.reply_pkdLen (s : State) (r : HostReply) : (s.reply r).pkdLen = s.pkdLen := rfl
@[simp] theorem State.reply_res0 (s : State) (r : HostReply) : (s.reply r).res0 = s.res0 := rfl
@[simp] theorem State.reply_res1 (s : State) (r : HostReply) : (s.reply r).res1 = s.res1 := rfl
@[simp] theorem State.reply_cap (s : State) (r : HostReply) : (s.reply r).cap = s.cap := rfl
@[simp] theorem State.reply_mem (s : State) (r : HostReply) : (s.reply r).mem = s.mem := rfl
@[simp] theorem State.reply_backed (s : State) (r : HostReply) : (s.reply r).backed = s.backed := rfl
@[simp] theorem State.reply_draws (s : State) (r : HostReply) : (s.reply r).draws = s.draws := rfl
@[simp] theorem State.reply_script (s : State) (r : HostReply) : (s.reply r).script = s.script := rfl
@[simp] theorem State.reply_replies (s : State) (r : HostReply) : (s.reply r).replies = r :: s.replies := rfl

/-! ### resetRegs -/

@[simp] theorem State.resetRegs_cmd (s : State) : s.resetRegs.cmd = 0x00000000#32 := rfl
@[simp] theorem State.resetRegs_status (s : State) : s.resetRegs.status = 0x00000000#32 := rfl
@[simp] theorem State.resetRegs_offset (s : State) : s.resetRegs.offset = 0x00000000#32 := rfl
@[simp] theorem State.resetRegs_key (s : State) : s.resetRegs.key = 0x00000000#32 := rfl
@[simp] theorem State.resetRegs_blkAddr (s : State) : s.resetRegs.blkAddr = 0x00000000#32 := rfl
@[simp] theorem State.resetRegs_pkdAddr (s : State) : s.resetRegs.pkdAddr = 0x00000000#32 := rfl
@[simp] theorem State.resetRegs_pkdLen (s : State) : s.resetRegs.pkdLen = 0x00000000#32 := rfl
@[simp] theorem State.resetRegs_res0 (s : State) : s.resetRegs.res0 = 0x00000000#32 := rfl
@[simp] theorem State.resetRegs_res1 (s : State) : s.resetRegs.res1 = 0x00000000#32 := rfl
@[simp] theorem State.resetRegs_cap (s : State) : s.resetRegs.cap = 0x00000001#32 := rfl
@[simp] theorem State.resetRegs_mem (s : State) : s.resetRegs.mem = s.mem := rfl
@[simp] theorem State.resetRegs_backed (s : State) : s.resetRegs.backed = s.backed := rfl
@[simp] theorem State.resetRegs_draws (s : State) : s.resetRegs.draws = s.draws := rfl
@[simp] theorem State.resetRegs_script (s : State) : s.resetRegs.script = s.script := rfl
@[simp] theorem State.resetRegs_replies (s : State) : s.resetRegs.replies = s.replies := rfl

/-! ### storeElements -/

@[simp] theorem State.storeElements_cmd (s : State) (xs : List Nat) : (s.storeElements xs).cmd = s.cmd := rfl
@[simp] theorem State.storeElements_status (s : State) (xs : List Nat) :
    (s.storeElements xs).status = s.status := rfl
@[simp] theorem State.storeElements_offset (s : State) (xs : List Nat) :
    (s.storeElements xs).offset = s.offset := rfl
@[simp] theorem State.storeElements_key (s : State) (xs : List Nat) : (s.storeElements xs).key = s.key := rfl
@[simp] theorem State.storeElements_blkAddr (s : State) (xs : List Nat) :
    (s.storeElements xs).blkAddr = s.blkAddr := rfl
@[simp] theorem State.storeElements_pkdAddr (s : State) (xs : List Nat) :
    (s.storeElements xs).pkdAddr = s.pkdAddr := rfl
@[simp] theorem State.storeElements_pkdLen (s : State) (xs : List Nat) :
    (s.storeElements xs).pkdLen = s.pkdLen := rfl
@[simp] theorem State.storeElements_res0 (s : State) (xs : List Nat) :
    (s.storeElements xs).res0 = s.res0 := rfl
@[simp] theorem State.storeElements_res1 (s : State) (xs : List Nat) :
    (s.storeElements xs).res1 = s.res1 := rfl
@[simp] theorem State.storeElements_cap (s : State) (xs : List Nat) : (s.storeElements xs).cap = s.cap := rfl
@[simp] theorem State.storeElements_mem (s : State) (xs : List Nat) :
    (s.storeElements xs).mem = s.mem.storeBlock s.blkAddr.toNat xs := rfl
@[simp] theorem State.storeElements_backed (s : State) (xs : List Nat) :
    (s.storeElements xs).backed = s.backed := rfl
@[simp] theorem State.storeElements_draws (s : State) (xs : List Nat) :
    (s.storeElements xs).draws = s.draws := rfl
@[simp] theorem State.storeElements_script (s : State) (xs : List Nat) :
    (s.storeElements xs).script = s.script := rfl
@[simp] theorem State.storeElements_replies (s : State) (xs : List Nat) :
    (s.storeElements xs).replies = s.replies := rfl

/-! ### storeValues -/

@[simp] theorem State.storeValues_cmd (s : State) (b : Nat) (vs : List Nat) :
    (s.storeValues b vs).cmd = s.cmd := rfl
@[simp] theorem State.storeValues_status (s : State) (b : Nat) (vs : List Nat) :
    (s.storeValues b vs).status = s.status := rfl
@[simp] theorem State.storeValues_offset (s : State) (b : Nat) (vs : List Nat) :
    (s.storeValues b vs).offset = s.offset := rfl
@[simp] theorem State.storeValues_key (s : State) (b : Nat) (vs : List Nat) :
    (s.storeValues b vs).key = s.key := rfl
@[simp] theorem State.storeValues_blkAddr (s : State) (b : Nat) (vs : List Nat) :
    (s.storeValues b vs).blkAddr = s.blkAddr := rfl
@[simp] theorem State.storeValues_pkdAddr (s : State) (b : Nat) (vs : List Nat) :
    (s.storeValues b vs).pkdAddr = s.pkdAddr := rfl
@[simp] theorem State.storeValues_pkdLen (s : State) (b : Nat) (vs : List Nat) :
    (s.storeValues b vs).pkdLen = s.pkdLen := rfl
@[simp] theorem State.storeValues_res0 (s : State) (b : Nat) (vs : List Nat) :
    (s.storeValues b vs).res0 = s.res0 := rfl
@[simp] theorem State.storeValues_res1 (s : State) (b : Nat) (vs : List Nat) :
    (s.storeValues b vs).res1 = s.res1 := rfl
@[simp] theorem State.storeValues_cap (s : State) (b : Nat) (vs : List Nat) :
    (s.storeValues b vs).cap = s.cap := rfl
@[simp] theorem State.storeValues_mem (s : State) (b : Nat) (vs : List Nat) :
    (s.storeValues b vs).mem = s.mem.storePacked s.pkdAddr.toNat (packWords Config.layout b vs) := rfl
@[simp] theorem State.storeValues_backed (s : State) (b : Nat) (vs : List Nat) :
    (s.storeValues b vs).backed = s.backed := rfl
@[simp] theorem State.storeValues_draws (s : State) (b : Nat) (vs : List Nat) :
    (s.storeValues b vs).draws = s.draws := rfl
@[simp] theorem State.storeValues_script (s : State) (b : Nat) (vs : List Nat) :
    (s.storeValues b vs).script = s.script := rfl
@[simp] theorem State.storeValues_replies (s : State) (b : Nat) (vs : List Nat) :
    (s.storeValues b vs).replies = s.replies := rfl

/-! ### storeUnspecified -/

@[simp] theorem State.storeUnspecified_cmd (s : State) (b : Nat) : (s.storeUnspecified b).cmd = s.cmd := rfl
@[simp] theorem State.storeUnspecified_status (s : State) (b : Nat) :
    (s.storeUnspecified b).status = s.status := rfl
@[simp] theorem State.storeUnspecified_offset (s : State) (b : Nat) :
    (s.storeUnspecified b).offset = s.offset := rfl
@[simp] theorem State.storeUnspecified_key (s : State) (b : Nat) : (s.storeUnspecified b).key = s.key := rfl
@[simp] theorem State.storeUnspecified_blkAddr (s : State) (b : Nat) :
    (s.storeUnspecified b).blkAddr = s.blkAddr := rfl
@[simp] theorem State.storeUnspecified_pkdAddr (s : State) (b : Nat) :
    (s.storeUnspecified b).pkdAddr = s.pkdAddr := rfl
@[simp] theorem State.storeUnspecified_pkdLen (s : State) (b : Nat) :
    (s.storeUnspecified b).pkdLen = s.pkdLen := rfl
@[simp] theorem State.storeUnspecified_res0 (s : State) (b : Nat) :
    (s.storeUnspecified b).res0 = s.res0 := rfl
@[simp] theorem State.storeUnspecified_res1 (s : State) (b : Nat) :
    (s.storeUnspecified b).res1 = s.res1 := rfl
@[simp] theorem State.storeUnspecified_cap (s : State) (b : Nat) : (s.storeUnspecified b).cap = s.cap := rfl
@[simp] theorem State.storeUnspecified_mem (s : State) (b : Nat) :
    (s.storeUnspecified b).mem = s.mem.storePacked s.pkdAddr.toNat (freePackedWords s.draws b) := rfl
@[simp] theorem State.storeUnspecified_backed (s : State) (b : Nat) :
    (s.storeUnspecified b).backed = s.backed := rfl
@[simp] theorem State.storeUnspecified_draws (s : State) (b : Nat) :
    (s.storeUnspecified b).draws = s.draws + b := rfl
@[simp] theorem State.storeUnspecified_script (s : State) (b : Nat) :
    (s.storeUnspecified b).script = s.script := rfl
@[simp] theorem State.storeUnspecified_replies (s : State) (b : Nat) :
    (s.storeUnspecified b).replies = s.replies := rfl

end Sys2Proof.Machine
end

