-- ==== Sys2Proof/Laws/Command.lean ====
section
/-! SUPPORT. What a command can do, said once: how it ends, what its body may change, and when its checks
pass. -/

namespace Sys2Proof.Machine

/-! ### How a command ends -/

/-- Every way `runCommand` can end: a fault entered from the state before, or the body's state completed. -/
theorem runCommand_cases (s : State) (early : Option ErrCode) (body : Except ErrCode State) :
    (∃ c, (early = some c ∨ (early = none ∧ body = .error c)) ∧ runCommand s early body = .next (s.raise c)) ∨
    (∃ t, early = none ∧ body = .ok t ∧ runCommand s early body = .next t.complete) := by
  cases early with
  | some c => exact .inl ⟨c, .inl rfl, rfl⟩
  | none =>
    cases body with
    | error c => exact .inl ⟨c, .inr ⟨rfl, rfl⟩, rfl⟩
    | ok t => exact .inr ⟨t, rfl, rfl, rfl⟩

/-- The checks of a command made before it reads anything. -/
def earlyOf (i : Instr) (s : State) : Option ErrCode :=
  match i with
  | .maxbits => firstFault s none true (some 512)
  | .maxbitsD => firstFault s none true (some 512)
  | .maxbitsDL n => firstFault s none (lengthOk n) (some (4 * n.toNat))
  | .pack w => firstFault s (some w) true (some 512)
  | .unpack w => firstFault s (some w) true (some 512)
  | .packD w => firstFault s (some w) true (some 512)
  | .unpackD w => firstFault s (some w) true (some 512)
  | .searchD w n => firstFault s (some w) (lengthOk n) none
  | .selectD w n => firstFault s (some w) (indexOk n) none
  | .packM w => firstFault s (some w) true (some 512)

/-- What a command does once its checks have passed. -/
def bodyOf (i : Instr) (s : State) : Except ErrCode State :=
  match i with
  | .maxbits => .ok { s with res0 := BitVec.ofNat 32 (width (s.elements 128)) }
  | .maxbitsD => deltaWidth s 128
  | .maxbitsDL n => deltaWidth s n.toNat
  | .pack w => .ok (s.storeUnmasked w.toNat (s.elements 128))
  | .unpack w => .ok (s.storeElements (s.unpacked w.toNat))
  | .packD w =>
    if noneNegative (deltas s.offset.toNat (s.elements 128)) then
      .ok (s.storeUnmasked w.toNat (deltaValues (deltas s.offset.toNat (s.elements 128))))
    else .error .errOrder
  | .unpackD w =>
    if (s.reconstructed w.toNat).getD 127 0 < 2 ^ 32 then
      .ok (s.storeElements (s.reconstructed w.toNat))
    else .error .errRange
  | .searchD w n =>
    if searchIndex s w.toNat n.toNat < n.toNat then
      if (s.reconstructed w.toNat).getD (searchIndex s w.toNat n.toNat) 0 < 2 ^ 32 then
        .ok { s with
          res0 := BitVec.ofNat 32 (searchIndex s w.toNat n.toNat)
          res1 := BitVec.ofNat 32 ((s.reconstructed w.toNat).getD (searchIndex s w.toNat n.toNat) 0) }
      else .error .errRange
    else
      .ok { s with
        res0 := BitVec.ofNat 32 n.toNat
        res1 := Config.freeRes1 s.draws
        draws := s.draws + 1 }
  | .selectD w n =>
    if (s.reconstructed w.toNat).getD n.toNat 0 < 2 ^ 32 then
      .ok { s with res0 := BitVec.ofNat 32 ((s.reconstructed w.toNat).getD n.toNat 0) }
    else .error .errRange
  | .packM w => .ok (s.storeValues w.toNat ((s.elements 128).map (fun x => x % 2 ^ w.toNat)))

/-- Every command is its checks and its body. -/
theorem exec_eq (i : Instr) (s : State) : exec i s = runCommand s (earlyOf i s) (bodyOf i s) := by
  cases i <;> rfl

/-- A command whose checks fault. -/
theorem exec_early {i : Instr} {s : State} {c : ErrCode} (h : earlyOf i s = some c) :
    exec i s = .next (s.raise c) := by
  rw [exec_eq, h]; rfl

/-- A command whose data faults. -/
theorem exec_error {i : Instr} {s : State} {c : ErrCode} (h : earlyOf i s = none)
    (hb : bodyOf i s = .error c) : exec i s = .next (s.raise c) := by
  rw [exec_eq, h, hb]; rfl

/-- A command that completes. -/
theorem exec_ok {i : Instr} {s t : State} (h : earlyOf i s = none) (hb : bodyOf i s = .ok t) :
    exec i s = .next t.complete := by
  rw [exec_eq, h, hb]; rfl

/-- Every way a command can end. -/
theorem exec_cases (i : Instr) (s : State) :
    (∃ c, (earlyOf i s = some c ∨ (earlyOf i s = none ∧ bodyOf i s = .error c)) ∧
      exec i s = .next (s.raise c)) ∨
    (∃ t, earlyOf i s = none ∧ bodyOf i s = .ok t ∧ exec i s = .next t.complete) := by
  rw [exec_eq]; exact runCommand_cases _ _ _

/-! ### What a body changes -/

@[simp] theorem State.elements_length (s : State) (n : Nat) : (s.elements n).length = n := by
  simp [State.elements, Memory.loadBlock]

@[simp] theorem State.unpacked_length (s : State) (b : Nat) : (s.unpacked b).length = 128 := by
  rw [State.unpacked]; cases Config.layout <;> simp [unpackWords]

@[simp] theorem sums_length (o : Nat) (vs : List Nat) : (sums o vs).length = vs.length := by
  induction vs generalizing o with
  | nil => rfl
  | cons v vs ih => simp [sums, ih]

@[simp] theorem deltas_length (o : Nat) (xs : List Nat) : (deltas o xs).length = xs.length := by
  induction xs generalizing o with
  | nil => rfl
  | cons x xs ih => simp [deltas, ih]

@[simp] theorem State.reconstructed_length (s : State) (b : Nat) : (s.reconstructed b).length = 128 := by
  simp [State.reconstructed]

@[simp] theorem packWords_length (l : Layout) (b : Nat) (vs : List Nat) : (packWords l b vs).length = b := by
  cases l <;> simp [packWords]

@[simp] theorem freePackedWords_length (k b : Nat) : (freePackedWords k b).length = b := by
  simp [freePackedWords]

/-- What a packer without mask leaves: some `b` words in the packed buffer, and some free values drawn. -/
theorem State.storeUnmasked_cases (s : State) (b : Nat) (vs : List Nat) :
    ∃ ws d, ws.length = b ∧
      s.storeUnmasked b vs = { s with mem := s.mem.storePacked s.pkdAddr.toNat ws, draws := d } := by
  unfold State.storeUnmasked
  split
  · exact ⟨_, s.draws, packWords_length _ _ _, rfl⟩
  · exact ⟨_, s.draws + b, freePackedWords_length _ _, rfl⟩

/-- What a body can do: write the result registers of its command, or write `b` packed words at `PKD_ADDR`,
or 128 elements at `BLK_ADDR`; nothing else. -/
theorem bodyOf_cases {i : Instr} {s t : State} (h : bodyOf i s = .ok t) :
    (∃ r0 r1 d, t = { s with res0 := r0, res1 := r1, draws := d } ∧
      (r0 ≠ s.res0 → .res0 ∈ resultsOf i) ∧ (r1 ≠ s.res1 → .res1 ∈ resultsOf i)) ∨
    (∃ ws d, t = { s with mem := s.mem.storePacked s.pkdAddr.toNat ws, draws := d } ∧
      destinationOf i s = (s.pkdAddr.toNat, 16 * ws.length) ∧ widthFieldOf i = some ws.length ∧
      blockBytesOf i = some 512) ∨
    (∃ xs, xs.length = 128 ∧ t = { s with mem := s.mem.storeBlock s.blkAddr.toNat xs } ∧
      destinationOf i s = (s.blkAddr.toNat, 512) ∧ blockBytesOf i = some 512) := by
  cases i with
  | maxbits =>
    cases h
    exact .inl ⟨_, _, _, rfl, fun _ => by simp [resultsOf], fun h => absurd rfl h⟩
  | maxbitsD =>
    simp only [bodyOf, deltaWidth] at h
    split at h <;> cases h
    exact .inl ⟨_, _, _, rfl, fun _ => by simp [resultsOf], fun h => absurd rfl h⟩
  | maxbitsDL n =>
    simp only [bodyOf, deltaWidth] at h
    split at h <;> cases h
    exact .inl ⟨_, _, _, rfl, fun _ => by simp [resultsOf], fun h => absurd rfl h⟩
  | pack w =>
    obtain ⟨ws, d, hl, he⟩ := s.storeUnmasked_cases w.toNat (s.elements 128)
    cases h
    exact .inr (.inl ⟨ws, d, he, by rw [hl]; rfl, by rw [hl]; rfl, rfl⟩)
  | unpack w =>
    cases h
    exact .inr (.inr ⟨_, by simp, rfl, rfl, rfl⟩)
  | packD w =>
    simp only [bodyOf] at h
    split at h
    · obtain ⟨ws, d, hl, he⟩ := s.storeUnmasked_cases w.toNat
        (deltaValues (deltas s.offset.toNat (s.elements 128)))
      cases h
      exact .inr (.inl ⟨ws, d, he, by rw [hl]; rfl, by rw [hl]; rfl, rfl⟩)
    · cases h
  | unpackD w =>
    simp only [bodyOf] at h
    split at h <;> cases h
    exact .inr (.inr ⟨_, by simp, rfl, rfl, rfl⟩)
  | searchD w n =>
    simp only [bodyOf] at h
    split at h
    · split at h <;> cases h
      exact .inl ⟨_, _, _, rfl, fun _ => by simp [resultsOf], fun _ => by simp [resultsOf]⟩
    · cases h
      exact .inl ⟨_, _, _, rfl, fun _ => by simp [resultsOf], fun _ => by simp [resultsOf]⟩
  | selectD w n =>
    simp only [bodyOf] at h
    split at h <;> cases h
    exact .inl ⟨_, _, _, rfl, fun _ => by simp [resultsOf], fun h => absurd rfl h⟩
  | packM w =>
    cases h
    exact .inr (.inl ⟨_, _, rfl, by simp [destinationOf], by simp [widthFieldOf], rfl⟩)

/-! ### When the checks pass -/

theorem backedAt_iff (s : State) (a : Nat) : backedAt s.backed a = true ↔ s.AddressExists a := by
  simp [backedAt, State.AddressExists]

theorem bufferExists_iff (s : State) (a n : Nat) : bufferExists s.backed a n = true ↔ s.BytesExist a n := by
  simp [bufferExists, State.BytesExist, backedAt_iff]

theorem sizeOk_some (s : State) (w : WField) : sizeOk s (some w) = true ↔ s.pkdLen.toNat = w.toNat := by
  have hw := w.isLt
  rw [sizeOk, beq_iff_eq, ← BitVec.toNat_inj, BitVec.toNat_setWidth, Nat.mod_eq_of_lt (by omega)]

theorem packedAligned_some (s : State) (w : WField) :
    packedAligned s (some w) = true ↔ s.PackedAligned w.toNat := by
  simp only [packedAligned, Bool.or_eq_true, decide_eq_true_eq, State.PackedAligned]
  omega

theorem packedExists_some (s : State) (w : WField) :
    packedExists s (some w) = true ↔ s.PackedExists w.toNat := by
  simp only [packedExists, Bool.or_eq_true, decide_eq_true_eq, bufferExists_iff, State.PackedExists]
  constructor
  · rintro (h | h) h0
    · omega
    · exact h
  · intro h
    by_cases h0 : w.toNat = 0
    · exact .inl h0
    · exact .inr (h (by omega))

theorem blockAligned_some (s : State) (n : Nat) : blockAligned s (some n) = true ↔ s.BlockAligned := by
  simp [blockAligned]

theorem blockExists_some (s : State) (n : Nat) : blockExists s (some n) = true ↔ s.BlockExists n := by
  rw [blockExists, bufferExists_iff]

/-- No fault among the checks: each of them passes. -/
theorem firstFault_none (s : State) (w : Option WField) (argOk : Bool) (blk : Option Nat) :
    firstFault s w argOk blk = none ↔
      widthOk w = true ∧ argOk = true ∧ sizeOk s w = true ∧
      (blockAligned s blk = true ∧ packedAligned s w = true) ∧
      (blockExists s blk = true ∧ packedExists s w = true) := by
  unfold firstFault
  cases widthOk w <;> cases argOk <;> cases sizeOk s w <;> cases blockAligned s blk <;>
    cases packedAligned s w <;> cases blockExists s blk <;> cases packedExists s w <;> simp

theorem sizeOk_none (s : State) : sizeOk s none = true := rfl

theorem packedAligned_none (s : State) : packedAligned s none = true := rfl

theorem packedExists_none (s : State) : packedExists s none = true := rfl

theorem blockAligned_none (s : State) : blockAligned s none = true := rfl

theorem blockExists_none (s : State) : blockExists s none = true := rfl

/-- The model's checks find nothing exactly when those of the spec's tables all pass. -/
theorem earlyOf_none (i : Instr) (s : State) : earlyOf i s = none ↔ ChecksPass i s := by
  cases i <;>
    simp only [earlyOf, firstFault_none, ChecksPass, WidthPasses, ArgInRange, SizePasses, AlignPasses,
      AddrPasses, widthFieldOf, blockBytesOf, widthOk, lengthOk, indexOk, sizeOk_some, packedAligned_some,
      packedExists_some, blockAligned_some, blockExists_some, sizeOk_none, packedAligned_none,
      packedExists_none, blockAligned_none, blockExists_none, Bool.and_eq_true, decide_eq_true_eq,
      Option.some.injEq, forall_eq', reduceCtorEq, false_imp_iff, implies_true, true_and, and_true]

end Sys2Proof.Machine
end

