-- ==== Sys2Proof/Laws/Numeric.lean ====
section
/-! SUPPORT. What the helper functions on numbers compute, one lemma a function (spec/00_scope.md R14). -/

namespace Sys2Proof.Machine

/-- A value's bit length is at most `b` exactly when the value is less than `2^b`. -/
theorem bitlen_le_iff (v b : Nat) : bitlen v ≤ b ↔ v < 2 ^ b := by
  unfold bitlen
  split
  · next h => simp [h]
  · next h => rw [Nat.succ_le_iff, Nat.log2_lt h]

theorem orAll_lt_iff (vs : List Nat) (b : Nat) : orAll vs < 2 ^ b ↔ ∀ v ∈ vs, v < 2 ^ b := by
  induction vs with
  | nil => simp [orAll]
  | cons v vs ih =>
    rw [orAll, List.forall_mem_cons, ← ih]
    refine ⟨fun h => ⟨lt_of_le_of_lt Nat.left_le_or h, lt_of_le_of_lt Nat.right_le_or h⟩,
      fun h => Nat.or_lt_two_pow h.1 h.2⟩

/-- The width of a list is at most `b` exactly when every value fits `b` bits (40_analyzer.md R120). -/
theorem width_le_iff (vs : List Nat) (b : Nat) : width vs ≤ b ↔ ∀ v ∈ vs, v < 2 ^ b := by
  rw [width, bitlen_le_iff, orAll_lt_iff]

theorem allFit_iff (b : Nat) (vs : List Nat) : allFit b vs = true ↔ ∀ v ∈ vs, v < 2 ^ b := by
  simp [allFit]

theorem noneNegative_iff (ds : List Int) : noneNegative ds = true ↔ ∀ d ∈ ds, 0 ≤ d := by
  simp [noneNegative]

/-- Delta `i` of a list: the value less the one before it, the first less the offset. -/
theorem getD_deltas (o : Nat) (xs : List Nat) (i : Nat) (h : i < xs.length) :
    (deltas o xs).getD i 0 = (xs.getD i 0 : Int) - (if i = 0 then o else xs.getD (i - 1) 0 : Nat) := by
  induction xs generalizing o i with
  | nil => simp at h
  | cons x xs ih =>
    cases i with
    | zero => simp [deltas]
    | succ i =>
      have := ih x i (by simpa using h)
      rw [deltas, List.getD_cons_succ, this]
      cases i <;> simp

/-- Running sum `i`: the offset and the first `i + 1` values. -/
theorem getD_sums (o : Nat) (vs : List Nat) (i : Nat) (h : i < vs.length) :
    (sums o vs).getD i 0 = o + (vs.take (i + 1)).sum := by
  induction vs generalizing o i with
  | nil => simp at h
  | cons v vs ih =>
    cases i with
    | zero => simp [sums]
    | succ i =>
      rw [sums, List.getD_cons_succ, ih (o + v) i (by simpa using h)]
      simp [Nat.add_assoc]

theorem lowerBound_le (key : Nat) (vs : List Nat) : lowerBound key vs ≤ vs.length := by
  induction vs with
  | nil => simp [lowerBound]
  | cons v vs ih =>
    rw [lowerBound, List.length_cons]
    split <;> omega

/-- Every value before the lower bound is less than the key. -/
theorem lt_of_lt_lowerBound (key : Nat) (vs : List Nat) (i : Nat) (h : i < lowerBound key vs) :
    vs.getD i 0 < key := by
  induction vs generalizing i with
  | nil => simp [lowerBound] at h
  | cons v vs ih =>
    rw [lowerBound] at h
    split at h
    · omega
    · cases i with
      | zero => simp; omega
      | succ i => simpa using ih i (by omega)

/-- The value at the lower bound is not less than the key. -/
theorem le_at_lowerBound (key : Nat) (vs : List Nat) (h : lowerBound key vs < vs.length) :
    key ≤ vs.getD (lowerBound key vs) 0 := by
  induction vs with
  | nil => simp at h
  | cons v vs ih =>
    rw [lowerBound] at h ⊢
    split
    · simpa
    · next hv =>
      rw [if_neg hv, List.length_cons] at h
      simpa using ih (by omega)

end Sys2Proof.Machine
end

