-- ==== Sys2Proof/Laws/Packing.lean ====
section
/-! SUPPORT. Cutting a number into digits of `b` bits and joining digits into a number
(spec/20_memory.md R72, R73). -/

namespace Sys2Proof.Machine

theorem digit_lt (b s i : Nat) : digit b s i < 2 ^ b := Nat.mod_lt _ (Nat.two_pow_pos b)

/-- Bit `k` of digit `i` is bit `i*b + k` of the number. -/
theorem testBit_digit (b s i k : Nat) : (digit b s i).testBit k = (decide (k < b) && s.testBit (i * b + k)) := by
  rw [digit, Nat.testBit_mod_two_pow, Nat.testBit_div_two_pow, Nat.add_comm]

theorem joinBits_lt (b : Nat) (vs : List Nat) (h : ∀ v ∈ vs, v < 2 ^ b) : joinBits b vs < 2 ^ (b * vs.length) := by
  induction vs with
  | nil => simp [joinBits]
  | cons v vs ih =>
    have h1 : v < 2 ^ b := h v (by simp)
    have h2 := ih (fun x hx => h x (by simp [hx]))
    rw [joinBits, List.length_cons, Nat.mul_succ, Nat.pow_add, Nat.mul_comm (2 ^ (b * vs.length))]
    calc v + 2 ^ b * joinBits b vs < 2 ^ b + 2 ^ b * joinBits b vs := by omega
      _ = 2 ^ b * (joinBits b vs + 1) := by ring
      _ ≤ 2 ^ b * 2 ^ (b * vs.length) := Nat.mul_le_mul_left _ h2

/-- A digit of joined values is the value. -/
theorem digit_joinBits (b : Nat) (vs : List Nat) (h : ∀ v ∈ vs, v < 2 ^ b) (i : Nat) (hi : i < vs.length) :
    digit b (joinBits b vs) i = vs.getD i 0 := by
  induction vs generalizing i with
  | nil => simp at hi
  | cons v vs ih =>
    have h1 : v < 2 ^ b := h v (by simp)
    cases i with
    | zero => simp [digit, joinBits, Nat.mod_eq_of_lt h1]
    | succ i =>
      have := ih (fun x hx => h x (by simp [hx])) i (by simpa using hi)
      rw [List.getD_cons_succ, ← this, digit, digit, joinBits, Nat.succ_mul, Nat.add_comm (i * b), Nat.pow_add,
        ← Nat.div_div_eq_div_mul, Nat.add_mul_div_left _ _ (Nat.two_pow_pos b), Nat.div_eq_of_lt h1, Nat.zero_add]

/-- Bit `i*b + k` of joined values is bit `k` of value `i`. -/
theorem testBit_joinBits (b : Nat) (vs : List Nat) (h : ∀ v ∈ vs, v < 2 ^ b) (i k : Nat) (hi : i < vs.length)
    (hk : k < b) : (joinBits b vs).testBit (i * b + k) = (vs.getD i 0).testBit k := by
  rw [← digit_joinBits b vs h i hi, testBit_digit]
  simp [hk]

/-- A number is its digits joined. -/
theorem joinBits_digits (b n s : Nat) (h : s < 2 ^ (b * n)) :
    joinBits b ((List.range n).map (digit b s)) = s := by
  induction n generalizing s with
  | zero => simpa [joinBits, eq_comm] using h
  | succ n ih =>
    have hd : ∀ i, digit b s (i + 1) = digit b (s / 2 ^ b) i := fun i => by
      rw [digit, digit, Nat.succ_mul, Nat.add_comm (i * b), Nat.pow_add, Nat.div_div_eq_div_mul]
    have hs : s / 2 ^ b < 2 ^ (b * n) := by
      rw [Nat.div_lt_iff_lt_mul (Nat.two_pow_pos b), ← Nat.pow_add]
      exact h
    have hm : (List.range n).map (digit b s ∘ Nat.succ) = (List.range n).map (digit b (s / 2 ^ b)) :=
      List.map_congr_left (fun i _ => hd i)
    rw [List.range_succ_eq_map, List.map_cons, List.map_map, joinBits, hm, ih _ hs, digit, Nat.zero_mul,
      pow_zero, Nat.div_one, Nat.mod_add_div]

end Sys2Proof.Machine
end

