-- ==== Sys2Proof/Laws/PerInstr.lean ====
section
/-! SUPPORT. What holds of every command as syntax, one lemma per command. -/

namespace Sys2Proof.Laws.OwnRow

/-- The row of the opcode map that belongs to a command (30_encoding.md R95). -/
def rowOf : Instr → OpRow
  | .maxbits => ⟨0xFFFFFFFF#32, 0x00000001#32, fun _ _ => .maxbits⟩
  | .maxbitsD => ⟨0xFFFFFFFF#32, 0x00000002#32, fun _ _ => .maxbitsD⟩
  | .maxbitsDL _ => ⟨0xFF00FFFF#32, 0x00000003#32, fun _ n => .maxbitsDL n⟩
  | .pack _ => ⟨0xFFFFC0FF#32, 0x00000004#32, fun w _ => .pack w⟩
  | .unpack _ => ⟨0xFFFFC0FF#32, 0x00000005#32, fun w _ => .unpack w⟩
  | .packD _ => ⟨0xFFFFC0FF#32, 0x00000006#32, fun w _ => .packD w⟩
  | .unpackD _ => ⟨0xFFFFC0FF#32, 0x00000007#32, fun w _ => .unpackD w⟩
  | .searchD _ _ => ⟨0xFF00C0FF#32, 0x00000008#32, fun w n => .searchD w n⟩
  | .selectD _ _ => ⟨0xFF00C0FF#32, 0x00000009#32, fun w n => .selectD w n⟩
  | .packM _ => ⟨0xFFFFC0FF#32, 0x0000000A#32, fun w _ => .packM w⟩

/-- The row of a command selects the command's own encoding (R90, R95, R99). -/
def Statement (i : Instr) : Prop := (rowOf i).selects (encode i) = true

theorem maxbits : Statement .maxbits := by unfold Statement; decide

theorem maxbitsD : Statement .maxbitsD := by unfold Statement; decide

theorem maxbitsDL (n : NField) : Statement (.maxbitsDL n) := by
  revert n; unfold Statement; decide +kernel

theorem pack (w : WField) : Statement (.pack w) := by
  revert w; unfold Statement; decide +kernel

theorem unpack (w : WField) : Statement (.unpack w) := by
  revert w; unfold Statement; decide +kernel

theorem packD (w : WField) : Statement (.packD w) := by
  revert w; unfold Statement; decide +kernel

theorem unpackD (w : WField) : Statement (.unpackD w) := by
  revert w; unfold Statement; decide +kernel

/-- The fixed bits of format WN read back from a command word: the fields lie outside the mask. -/
theorem commandWord_mask (op : Word) (w : WField) (n : NField) (h : op &&& 0xFF00C0FF#32 = op) :
    commandWord op w n &&& 0xFF00C0FF#32 = op := by
  have hw : ∀ w : WField, (w.setWidth 32 <<< 8) &&& 0xFF00C0FF#32 = 0#32 := by decide +kernel
  have hn : ∀ n : NField, (n.setWidth 32 <<< 16) &&& 0xFF00C0FF#32 = 0#32 := by decide +kernel
  have hor : ∀ a b c : Word, (a ||| b) &&& c = (a &&& c) ||| (b &&& c) := fun a b c => by
    ext i; simp [Bool.and_or_distrib_right]
  rw [commandWord, hor, hor, h, hw, hn]
  simp

theorem searchD (w : WField) (n : NField) : Statement (.searchD w n) := by
  simp [Statement, rowOf, OpRow.selects, encode, commandWord_mask]

theorem selectD (w : WField) (n : NField) : Statement (.selectD w n) := by
  simp [Statement, rowOf, OpRow.selects, encode, commandWord_mask]

theorem packM (w : WField) : Statement (.packM w) := by
  revert w; unfold Statement; decide +kernel

end Sys2Proof.Laws.OwnRow
end

