-- ==== Sys2Proof/Tests/Slice0.lean ====
section
/-! SUPPORT. Tests: the decoder on words written out bit by bit from 30_encoding.md, an ill-formed command for
every operand check, vectors of 95_test_vectors.md, and for every statement with hypotheses states and operands
that meet them. -/

namespace Sys2Proof.Tests

-- One theorem after another: the kernel evaluations below, all waiting at once, take too many threads.
set_option Elab.async false

open Sys2Proof Sys2Proof.Machine

/-! ### Helpers -/

/-- The start state of 95_test_vectors.md, for a command of width `w`, on the memory given. -/
def start (w : Nat) (m : Memory) : State :=
  { State.reset with
    blkAddr := 0x00001000#32
    pkdAddr := 0x00002000#32
    pkdLen := BitVec.ofNat 32 w
    mem := m }

/-- The next state, where there is one. -/
def nextOf (o : Host.Outcome State Fault Refusal) (s : State) : State :=
  match o with
  | .next t => t
  | .fault _ => s
  | .refused _ => s

/-- The state after a command. -/
def after (i : Instr) (s : State) : State := nextOf (exec i s) s

theorem exec_after (i : Instr) (s : State) : exec i s = .next (after i s) := by
  obtain ⟨c, -, h⟩ | ⟨t, -, -, h⟩ := exec_cases i s <;> simp [after, h, nextOf]

/-- The state with one host action to run. -/
def withAction (a : HostAction) (s : State) : State := { s with script := [a] }

/-- Is the outcome this stop? -/
def stopsWith (f : Fault) : Host.Outcome State Fault Refusal → Bool
  | .fault g => decide (g = f)
  | _ => false

/-! ### Decoding: words written out from the bit fields of R91, most significant bit first:
reserved, `N`, reserved, `W`, `OP` -/

theorem test_decode_maxbits : decode 0b00000000_00000000_00_000000_00000001#32 = .ok .maxbits := by
  decide +kernel

theorem test_decode_maxbitsD : decode 0b00000000_00000000_00_000000_00000010#32 = .ok .maxbitsD := by
  decide +kernel

theorem test_decode_maxbitsDL :
    decode 0b00000000_01000001_00_000000_00000011#32 = .ok (.maxbitsDL 65) := by decide +kernel

theorem test_decode_pack : decode 0b00000000_00000000_00_100000_00000100#32 = .ok (.pack 32) := by
  decide +kernel

theorem test_decode_unpack : decode 0b00000000_00000000_00_001001_00000101#32 = .ok (.unpack 9) := by
  decide +kernel

theorem test_decode_packD : decode 0b00000000_00000000_00_001011_00000110#32 = .ok (.packD 11) := by
  decide +kernel

theorem test_decode_unpackD : decode 0b00000000_00000000_00_000010_00000111#32 = .ok (.unpackD 2) := by
  decide +kernel

theorem test_decode_searchD :
    decode 0b00000000_10000000_00_001011_00001000#32 = .ok (.searchD 11 128) := by decide +kernel

theorem test_decode_selectD :
    decode 0b00000000_01111111_00_000011_00001001#32 = .ok (.selectD 3 127) := by decide +kernel

theorem test_decode_packM : decode 0b00000000_00000000_00_111111_00001010#32 = .ok (.packM 63) := by
  decide +kernel

/-- Vectors T1, T3 to T6, T11 to T13, T16, T17, T19e: no command. -/
theorem test_decode_illegal :
    ([0x00000000#32, 0x00000101#32, 0x00010001#32, 0x01000001#32, 0x00004001#32, 0x00000103#32,
      0x0000000B#32, 0x000000FF#32, 0x00012004#32, 0x0000C004#32, 0x8000000A#32].all
      (fun v => decide (decode v = .error .noRow))) = true := by decide +kernel

/-- Without the masked packer 0x0A is no opcode (R95, R96). -/
theorem test_decode_without_masked : decodeOn false 0x0000000A#32 = .error .noRow := by decide +kernel

theorem test_decodeTableWord :
    decodeTableWord 32 0x000A0209 = some (.selectD 2 10) ∧ decodeTableWord 32 0 = none := by decide +kernel

/-! ### Ill-formed commands: each check refuses one (R93, R94) -/

theorem test_width_33_ill_formed :
    ∀ i ∈ [Instr.pack 33, .unpack 33, .packD 33, .unpackD 33, .packM 33, .searchD 33 1, .selectD 33 0],
      i.wellFormed = false := by decide

theorem test_width_32_well_formed :
    ∀ i ∈ [Instr.pack 32, .unpack 32, .packD 32, .unpackD 32, .packM 32, .searchD 32 128, .selectD 32 127],
      i.wellFormed = true := by decide

theorem test_length_ill_formed :
    ∀ i ∈ [Instr.maxbitsDL 0, .maxbitsDL 129, .searchD 0 0, .searchD 0 129], i.wellFormed = false := by decide

theorem test_index_ill_formed : (Instr.selectD 0 128).wellFormed = false := by decide

/-! ### The bit layout -/

/-- T39a, `HORIZONTAL`. -/
theorem test_packWords_horizontal :
    packWords .horizontal 3 ((List.range 128).map (fun i => i % 8)) =
      [0x88FAC688FAC688FAC688FAC688FAC688#128, 0xC688FAC688FAC688FAC688FAC688FAC6#128,
        0xFAC688FAC688FAC688FAC688FAC688FA#128] := by decide +kernel

/-- T39a under `LANE4`. -/
theorem test_packWords_lane4_block :
    packWords .lane4 3 ((List.range 128).map (fun i => i % 8)) =
      [0xFBEFBEFBB2CB2CB269A69A6920820820#128, 0xBEFBEFBE2CB2CB2C9A69A69A08208208#128,
        0xEFBEFBEFCB2CB2CBA69A69A682082082#128] := by decide +kernel

/-- T35 under `LANE4`. -/
theorem test_packWords_lane4 :
    packWords .lane4 5 ((List.range 128).map (fun i => if i = 25 then 0x1F else 0)) =
      [0x0000000000000000C000000000000000#128, 0x00000000000000000000000700000000#128, 0, 0, 0] := by
  decide +kernel

theorem test_unpackWords_lane4 :
    unpackWords .lane4 5 [0x0000000000000000C000000000000000#128, 0x00000000000000000000000700000000#128, 0, 0, 0] =
      (List.range 128).map (fun i => if i = 25 then 0x1F else 0) := by decide +kernel

/-! ### Commands -/

/-- T22. -/
theorem test_maxbits_last_element :
    (after .maxbits (start 0 [(0x11FC, 1)])).res0 = 1#32 ∧
      (after .maxbits (start 0 [(0x11FC, 1)])).status = 0x001#32 := by decide +kernel

/-- T23. -/
theorem test_maxbits_bit_31 : (after .maxbits (start 0 [(0x1017, 0x80)])).res0 = 32#32 := by decide +kernel

/-- All 0 but the last element, 5: the last delta is 5. -/
theorem test_maxbitsD_last_delta : (after .maxbitsD (start 0 [(0x11FC, 5)])).res0 = 3#32 := by decide +kernel

/-- R122, corner case: a delta of -1 is no large number. -/
theorem test_maxbitsD_negative :
    (after .maxbitsD { start 0 [] with offset := 1#32 }).status = 0x172#32 := by decide +kernel

/-- Partial read, vector after T30h: one element at 0xFFFC exists, two do not. -/
theorem test_maxbitsDL_at_the_end :
    (after (.maxbitsDL 1) { start 0 [] with blkAddr := 0xFFFC#32 }).status = 0x001#32 ∧
      (after (.maxbitsDL 2) { start 0 [] with blkAddr := 0xFFFC#32 }).status = 0x162#32 := by decide +kernel

/-- T30h: elements 7, 7, 8, then 1000 (0x3E8), from offset 7; lengths 1 to 4. -/
theorem test_maxbitsDL_lengths :
    ([1#8, 2#8, 3#8, 4#8].map (fun n => (after (.maxbitsDL n)
      { start 0 [(0x1000, 7), (0x1004, 7), (0x1008, 8), (0x100C, 0xE8), (0x100D, 3)] with offset := 7#32 }).res0))
      = [0#32, 0#32, 1#32, 10#32] := by decide +kernel

/-- T35: the element crosses from word 0 into word 1. -/
theorem test_pack_crosses_words :
    (after (.pack 5) (start 5 [(0x1064, 0x1F)])).mem = [(0x1064, 0x1F), (0x200F, 0xE0), (0x2010, 0x03)] := by
  decide +kernel

/-- T15. -/
theorem test_pack_width_33 : (after (.pack 33) (start 33 [])).status = 0x122#32 := by decide +kernel

/-- An element that does not fit: no fault, and a byte outside the packed buffer is kept (R143). -/
theorem test_pack_unfit :
    (after (.pack 1) (start 1 [(0x1000, 2)])).status = 0x001#32 ∧
      (after (.pack 1) (start 1 [(0x1000, 2)])).draws = 1 := by decide +kernel

/-- The masked packer keeps the low 5 bits of 0x3F (R144). -/
theorem test_packM_truncates :
    (after (.packM 5) (start 5 [(0x1064, 0x3F)])).mem = [(0x1064, 0x3F), (0x200F, 0xE0), (0x2010, 0x03)] := by
  decide +kernel

/-- T19d. -/
theorem test_packM_width_0 : (after (.packM 0) (start 0 [(0x1000, 9)])).status = 0x001#32 := by decide +kernel

/-- T35 backwards. -/
theorem test_unpack_crosses_words :
    (after (.unpack 5) (start 5 [(0x200F, 0xE0), (0x2010, 0x03)])).mem =
      [(0x1064, 0x1F), (0x200F, 0xE0), (0x2010, 0x03)] := by decide +kernel

/-- Width 0 clears the block whatever `PKD_ADDR` holds (R145, R67). -/
theorem test_unpack_width_0 :
    (after (.unpack 0) { start 0 [(0x1000, 9), (0x1200, 8)] with pkdAddr := 0xDEAD0003#32 }).mem =
      [(0x1200, 8)] := by decide +kernel

/-- The last delta is 5 in three bits: the top of word 2. -/
theorem test_packD_last_delta :
    (after (.packD 3) (start 3 [(0x11FC, 5)])).mem = [(0x11FC, 5), (0x202F, 0xA0)] := by decide +kernel

/-- T29's block for the packer: `ERR_ORDER`, nothing written. -/
theorem test_packD_negative :
    after (.packD 3) { start 3 [] with offset := 1#32 } =
      { start 3 [] with offset := 1#32, status := 0x172#32 } := by decide +kernel

/-- The last delta is 5, every value before it the offset 0. -/
theorem test_unpackD_last_delta :
    (after (.unpackD 3) (start 3 [(0x202F, 0xA0)])).mem = [(0x11FC, 5), (0x202F, 0xA0)] := by decide +kernel

/-- A last sum of exactly 2^32 is out of range (R173, R174). -/
theorem test_unpackD_out_of_range :
    (after (.unpackD 3) { start 3 [(0x202F, 0xA0)] with offset := 0xFFFFFFFB#32 }).status = 0x182#32 := by
  decide +kernel

/-- The key is the last value; with one element fewer it is not found (R191). -/
theorem test_searchD_last :
    (after (.searchD 3 128) { start 3 [(0x202F, 0xA0)] with key := 5#32 }).res0 = 127#32 ∧
      (after (.searchD 3 128) { start 3 [(0x202F, 0xA0)] with key := 5#32 }).res1 = 5#32 ∧
      (after (.searchD 3 127) { start 3 [(0x202F, 0xA0)] with key := 5#32 }).res0 = 127#32 ∧
      (after (.searchD 3 127) { start 3 [(0x202F, 0xA0)] with key := 5#32 }).status = 0x001#32 := by
  decide +kernel

/-- T18: the width is tested before the length. -/
theorem test_searchD_width_first : (after (.searchD 33 0) (start 33 [])).status = 0x122#32 := by decide +kernel

theorem test_selectD_last : (after (.selectD 3 127) (start 3 [(0x202F, 0xA0)])).res0 = 5#32 := by decide +kernel

/-- T19b. -/
theorem test_selectD_index_128 : (after (.selectD 0 128) (start 0 [])).status = 0x132#32 := by decide +kernel

/-! ### The host's side -/

/-- R23: the word is in `CMD` although it is illegal; R34: `CLRF` clears `SFAULT` alone. -/
theorem test_illegal_word_then_clear :
    (nextOf (step (withAction (.regWrite 0x00#32 0#32) (start 0 []))) (start 0 [])).status = 0x112#32 ∧
      (nextOf (step (withAction (.regWrite 0x04#32 0x100#32) { start 0 [] with status := 0x112#32 }))
        (start 0 [])).status = 0x012#32 := by decide +kernel

/-- R33, R34: an offset that is no register, and a register the host cannot write. -/
theorem test_no_register :
    (nextOf (step (withAction (.regRead 0x28#32) (start 0 []))) (start 0 [])).replies = [.word 0#32] ∧
      nextOf (step (withAction (.regWrite 0x1C#32 5#32) (start 0 []))) (start 0 []) = start 0 [] := by
  decide +kernel

/-- R250: reset clears `OFFSET` and keeps memory. -/
theorem test_reset_action :
    nextOf (step (withAction .reset { start 0 [(0x10, 1)] with offset := 5#32, status := 0x112#32 })) (start 0 []) =
      { State.reset with mem := [(0x10, 1)] } := by decide +kernel

/-- `ST32 0x1000, 0x01020304` (R100). -/
theorem test_store :
    (nextOf (step (withAction (scriptST32 0x1000#32 0x01020304#32) (start 0 []))) (start 0 [])).mem =
      [(0x1000, 4), (0x1001, 3), (0x1002, 2), (0x1003, 1)] := by decide +kernel

/-! ### Witnesses: for each statement with hypotheses, states and operands that meet them, every clause at a
boundary of its range -/

theorem witness_EncodeOfDecodeIsIdentity : decode 0x00800208#32 = .ok (.searchD 2 128) := by decide +kernel

theorem witness_IllegalWordsRaiseErrOp :
    IllegalWord Config.hasMaskedPack 0x00000000#32 ∧ IllegalWord true 0x0000000B#32 ∧
      IllegalWord false 0x0000000A#32 ∧ ¬ IllegalWord true 0x0000000A#32 ∧ IllegalWord true 0x00004004#32 ∧
      IllegalWord true 0x01000004#32 ∧ IllegalWord true 0x00000103#32 ∧ IllegalWord true 0x00010004#32 := by
  refine ⟨?_, ?_, ?_, ?_, ?_, ?_, ?_, ?_⟩ <;> unfold IllegalWord <;> decide

theorem witness_OpcodeRowsAreDisjoint : ∃ r, (opRows true)[9]? = some r ∧ r.selects 0x0000000A#32 = true :=
  ⟨_, rfl, by decide⟩

theorem witness_IllFormedMeansOperandFault :
    (exec (.pack 33) (start 33 []) = .next (after (.pack 33) (start 33 [])) ∧
        (Instr.pack 33).wellFormed = false) ∧
      exec (.pack 32) (start 32 []) = .next (after (.pack 32) (start 32 [])) ∧
        (Instr.pack 32).wellFormed = true :=
  ⟨⟨exec_after _ _, by decide⟩, exec_after _ _, by decide⟩

theorem witness_CmdWriteRunsDecodedCommand :
    (withAction (.regWrite 0x00#32 0x00000001#32) (start 0 [])).script = [.regWrite 0x00#32 0x00000001#32] ∧
      decode 0x00000001#32 = .ok .maxbits := ⟨rfl, by decide +kernel⟩

theorem witness_HostRegisterWrites :
    (∀ off v : Word, (withAction (.regWrite off v) (start 0 [])).script = .regWrite off v :: []) ∧
      0x1C#32 ∉ [0x00#32, 0x04#32, 0x08#32, 0x0C#32, 0x10#32, 0x14#32, 0x18#32] ∧
      0x24#32 ∉ [0x00#32, 0x04#32, 0x08#32, 0x0C#32, 0x10#32, 0x14#32, 0x18#32] ∧
      0x01#32 ∉ [0x00#32, 0x04#32, 0x08#32, 0x0C#32, 0x10#32, 0x14#32, 0x18#32] ∧
      field 0x00000100#32 8 1 = 1 ∧ field 0xFFFFFEFF#32 8 1 ≠ 1 :=
  ⟨fun _ _ => rfl, by decide, by decide, by decide, by decide, by decide⟩

theorem witness_HostRegisterReads :
    (∀ off : Word, (withAction (.regRead off) (start 0 [])).script = .regRead off :: []) ∧
      0x28#32 ∉ [0x00#32, 0x04#32, 0x08#32, 0x0C#32, 0x10#32, 0x14#32, 0x18#32, 0x1C#32, 0x20#32, 0x24#32] ∧
      0x26#32 ∉ [0x00#32, 0x04#32, 0x08#32, 0x0C#32, 0x10#32, 0x14#32, 0x18#32, 0x1C#32, 0x20#32, 0x24#32] :=
  ⟨fun _ => rfl, by decide, by decide⟩

theorem witness_HostMemoryLoadStore :
    (withAction (.store 0xFFFC#32 [1, 2, 3, 4]) (start 0 [])).script = .store 0xFFFC#32 [1, 2, 3, 4] :: [] ∧
      (withAction (.load 0xFFFC#32 4) (start 0 [])).script = .load 0xFFFC#32 4 :: [] ∧
      (start 0 []).BytesExist 0xFFFC 4 ∧ ¬ (start 0 []).BytesExist 0xFFFD 4 ∧ (start 0 []).BytesExist 0 0 :=
  ⟨rfl, rfl, by decide, by decide, by decide⟩

theorem witness_ResetGivesResetValues :
    (withAction .reset (start 5 [(7, 1)])).script = .reset :: [] ∧
      AfterCommand (start 0 []) (after .maxbits (start 0 [])) :=
  ⟨rfl, .inl ⟨_, exec_after _ _⟩⟩

theorem witness_IdleStepKeepsState : (start 0 []).script = [] := rfl

theorem witness_CapReadsItsConstant : (start 5 [(0x1000, 1)]).Legal := by decide +kernel

theorem witness_StepKeepsLegal :
    (withAction (.regWrite 0x08#32 5#32) (start 0 [(0x1000, 1)])).Legal ∧
      step (withAction (.regWrite 0x08#32 5#32) (start 0 [(0x1000, 1)])) =
        .next { start 0 [(0x1000, 1)] with offset := 5#32 } := ⟨by decide +kernel, rfl⟩

theorem witness_CanonicalMemoriesAreEqual :
    Memory.wf [(1, 5), (0xFFFFFFFF, 6)] = true ∧
      ∀ a, Memory.read [(1, 5), (0xFFFFFFFF, 6)] a = Memory.read [(1, 5), (0xFFFFFFFF, 6)] a :=
  ⟨by decide, fun _ => rfl⟩

theorem witness_FaultChangesStatusOnly :
    (AfterCommand (start 0 []) (after (.selectD 0 128) (start 0 [])) ∧
        statusState (after (.selectD 0 128) (start 0 [])).status = 2) ∧
      AfterCommand (start 0 []) ((start 0 []).raise .errOp) ∧ statusState ((start 0 []).raise .errOp).status = 2 :=
  ⟨⟨.inl ⟨_, exec_after _ _⟩, by decide +kernel⟩, .inr ⟨0#32, rfl⟩, by decide⟩

theorem witness_CompletionSetsDone :
    exec (.maxbitsDL 1) (start 0 []) = .next (after (.maxbitsDL 1) (start 0 [])) ∧
      statusState (after (.maxbitsDL 1) (start 0 [])).status ≠ 2 := ⟨exec_after _ _, by decide +kernel⟩

theorem witness_CommandFrame :
    exec (.packM 1) (start 1 []) = .next (after (.packM 1) (start 1 [])) ∧
      RegName.res0 ∉ resultsOf (.packM 1) ∧ RegName.res1 ∉ resultsOf .maxbits ∧
      ¬ InBuffer (destinationOf (.packM 1) (start 1 [])) 0x1FFF ∧
      InBuffer (destinationOf (.packM 1) (start 1 [])) 0x2000 ∧
      InBuffer (destinationOf (.packM 1) (start 1 [])) 0x200F ∧
      ¬ InBuffer (destinationOf (.packM 1) (start 1 [])) 0x2010 :=
  ⟨exec_after _ _, by unfold InBuffer; decide⟩

theorem witness_OutcomeDependsOnInputsOnly :
    SameInputs (.selectD 0 5) (start 0 []) { start 0 [] with res1 := 9#32, status := 0x112#32, key := 4#32 } ∧
      statusState (after (.selectD 0 5) (start 0 [])).status = 1 :=
  ⟨⟨rfl, rfl, by decide, fun _ _ => rfl⟩, by decide +kernel⟩

theorem witness_SfaultIsSticky :
    ({ start 0 [] with status := 0x112#32, script := [.regWrite 0x04#32 0xFFFFFEFF#32] } : State).GoneWrong ∧
      step { start 0 [] with status := 0x112#32, script := [.regWrite 0x04#32 0xFFFFFEFF#32] } =
        .next { start 0 [] with status := 0x112#32 } ∧
      ([HostAction.regWrite 0x04#32 0xFFFFFEFF#32].head? ≠ some .reset) ∧
      ∀ v, [HostAction.regWrite 0x04#32 0xFFFFFEFF#32].head? = some (.regWrite 0x04#32 v) → field v 8 1 = 0 := by
  refine ⟨by decide, rfl, by decide, ?_⟩
  intro v h
  simp only [List.head?_cons, Option.some.injEq, HostAction.regWrite.injEq, true_and] at h
  subst h; decide

theorem witness_RepeatedFaultIsTheSame :
    exec (.maxbitsDL 0) (start 0 []) = .next ((start 0 []).raise .errArg) := exec_early (by decide +kernel)

theorem witness_CommandsRaiseOnlyTheirFaults :
    exec .maxbits { start 0 [] with blkAddr := 2#32 } =
      .next (State.raise { start 0 [] with blkAddr := 2#32 } .errAlign) := exec_early (by decide +kernel)

/-- The checks pass exactly when no fault is found before the command reads. -/
theorem checks_pass {i : Instr} {s : State} (h : earlyOf i s = none) : ChecksPass i s := (earlyOf_none i s).1 h

theorem witness_ChecksInOrder_width : ¬ WidthPasses (.pack 33) ∧ WidthPasses (.pack 32) :=
  ⟨fun h => absurd (h 33 rfl) (by decide), fun b h => by cases h; decide⟩

theorem witness_ChecksInOrder_arg :
    WidthPasses (.searchD 32 0) ∧ ¬ ArgInRange (.searchD 32 0) ∧ ¬ ArgInRange (.searchD 32 129) ∧
      ArgInRange (.searchD 32 128) ∧ ¬ ArgInRange (.maxbitsDL 0) ∧ ¬ ArgInRange (.selectD 0 128) ∧
      ArgInRange (.selectD 0 127) :=
  ⟨fun b h => by cases h; decide, by simp [ArgInRange]⟩

theorem witness_ChecksInOrder_size : ¬ SizePasses (.pack 5) (start 4 []) ∧ SizePasses (.pack 5) (start 5 []) :=
  ⟨fun h => absurd (h 5 rfl) (by decide), fun b h => by cases h; decide⟩

theorem witness_ChecksInOrder_align :
    SizePasses (.pack 1) { start 1 [] with pkdAddr := 0x2008#32 } ∧
      ¬ AlignPasses (.pack 1) { start 1 [] with pkdAddr := 0x2008#32 } ∧
      ¬ AlignPasses (.pack 0) { start 0 [] with blkAddr := 0x1002#32 } :=
  ⟨fun b h => by cases h; decide, fun h => absurd (h.2 1 rfl (by decide)) (by decide),
    fun h => absurd (h.1 512 rfl) (by decide)⟩

theorem witness_ChecksInOrder_addr :
    AlignPasses .maxbits { start 1 [] with blkAddr := 0xFE04#32 } ∧
      ¬ AddrPasses .maxbits { start 1 [] with blkAddr := 0xFE04#32 } ∧
      ¬ AddrPasses .maxbits { start 1 [] with blkAddr := 0xFFFFFE04#32 } :=
  ⟨⟨fun n h => by decide, fun b h => by cases h⟩, fun h => absurd (h.1 512 rfl) (by decide +kernel),
    fun h => absurd (h.1 512 rfl) (by decide +kernel)⟩

theorem witness_ChecksInOrder_pass :
    ChecksPass .maxbits { start 0 [] with blkAddr := 0xFE00#32 } ∧ ChecksPass (.pack 32) (start 32 []) ∧
      ChecksPass (.searchD 0 128) (start 0 []) ∧ decode 0#32 = .error .noRow :=
  ⟨checks_pass (by decide +kernel), checks_pass (by decide +kernel), checks_pass (by decide +kernel),
    by decide +kernel⟩

theorem witness_WidthZeroIgnoresPackedAddress :
    widthFieldOf (.selectD 0 127) = some 0 ∧ widthFieldOf (.unpackD 0) = some 0 ∧
      (start 1 []).pkdLen ≠ 0#32 ∧ ArgInRange (.selectD 0 127) :=
  ⟨rfl, rfl, by decide, by simp [ArgInRange]⟩

theorem witness_OrderFaultExactly :
    (deltasTestedBy .maxbitsD = some 128 ∧ ChecksPass .maxbitsD { start 0 [] with offset := 1#32 } ∧
        State.deltaAt { start 0 [] with offset := 1#32 } 0 < 0) ∧
      (deltasTestedBy (.maxbitsDL 1) = some 1 ∧ ChecksPass (.maxbitsDL 1) (start 0 []) ∧
        ¬ (start 0 []).deltaAt 0 < 0) ∧
      deltasTestedBy (.packD 0) = some 128 ∧ ChecksPass (.packD 0) (start 0 [(0x11F8, 1)]) ∧
        (start 0 [(0x11F8, 1)]).deltaAt 127 < 0 :=
  ⟨⟨rfl, checks_pass (by decide +kernel), by decide +kernel⟩,
    ⟨rfl, checks_pass (by decide +kernel), by decide +kernel⟩,
    rfl, checks_pass (by decide +kernel), by decide +kernel⟩

/-- A packed buffer of width 3 whose delta 1 is 5 and whose other deltas are 0. -/
def fiveAtOne : State := start 3 [(0x2000, 0x28)]

theorem witness_RangeFaultExactly :
    ChecksPass (.unpackD 0) (start 0 []) ∧ ChecksPass (.selectD 3 1) { fiveAtOne with offset := 0xFFFFFFFB#32 } ∧
      State.sumAt { fiveAtOne with offset := 0xFFFFFFFB#32 } 3 1 = 2 ^ 32 ∧
      ChecksPass (.searchD 3 2) { fiveAtOne with offset := 0xFFFFFFFB#32, key := 0xFFFFFFFF#32 } ∧
      FirstAtLeastKey { fiveAtOne with offset := 0xFFFFFFFB#32, key := 0xFFFFFFFF#32 } 3 2 1 :=
  ⟨checks_pass (by decide +kernel), checks_pass (by decide +kernel), by decide +kernel,
    checks_pass (by decide +kernel), by unfold FirstAtLeastKey; decide +kernel⟩

theorem witness_MaxbitsResult :
    (start 0 []).BlockUsable 512 ∧ State.BlockUsable { start 0 [] with blkAddr := 0xFE00#32 } 512 := by
  decide +kernel

theorem witness_MaxbitsDResult :
    (start 0 [(0x11FC, 5)]).BlockUsable 512 ∧ ∀ j, j < 128 → 0 ≤ (start 0 [(0x11FC, 5)]).deltaAt j := by
  decide +kernel

theorem witness_MaxbitsDLResult :
    ((1#8).toNat ≤ 128 ∧ State.BlockUsable { start 0 [] with blkAddr := 0xFFFC#32 } (4 * (1#8).toNat) ∧
        ∀ j, j < (1#8).toNat → 0 ≤ State.deltaAt { start 0 [] with blkAddr := 0xFFFC#32 } j) ∧
      1 ≤ (128#8).toNat ∧ (128#8).toNat ≤ 128 ∧ (start 0 []).BlockUsable (4 * (128#8).toNat) ∧
        ∀ j, j < (128#8).toNat → 0 ≤ (start 0 []).deltaAt j := by decide +kernel

theorem witness_AnalyzerWidthFits :
    statusState (after .maxbits (start 0 [])).status = 1 ∧ statusState (after .maxbitsD (start 0 [])).status = 1 ∧
      statusState (after (.maxbitsDL 1) (start 0 [])).status = 1 ∧
      statusState (after (.maxbitsDL 128) (start 0 [])).status = 1 ∧ (1#8).toNat ≤ (128#8).toNat := by
  decide +kernel

theorem witness_PackResult :
    (start 5 [(0x1064, 0x1F)]).BlockUsable 512 ∧ (start 5 [(0x1064, 0x1F)]).PackedUsable (5#6).toNat ∧
      ∀ i, i < 128 → (start 5 [(0x1064, 0x1F)]).elem i < 2 ^ (5#6).toNat := by decide +kernel

theorem witness_PackMResult :
    ((start 32 []).BlockUsable 512 ∧ (start 32 []).PackedUsable (32#6).toNat) ∧
      (start 0 []).PackedUsable (0#6).toNat := by decide +kernel

theorem witness_PackDResult :
    (start 3 [(0x11FC, 5)]).BlockUsable 512 ∧ (start 3 [(0x11FC, 5)]).PackedUsable (3#6).toNat ∧
      ∀ i, i < 128 → 0 ≤ (start 3 [(0x11FC, 5)]).deltaAt i ∧
        (start 3 [(0x11FC, 5)]).deltaAt i < 2 ^ (3#6).toNat := by decide +kernel

theorem witness_UnfitPackCompletes :
    (start 1 [(0x11FC, 2)]).BlockUsable 512 ∧ (start 1 [(0x11FC, 2)]).PackedUsable (1#6).toNat ∧
      2 ^ (1#6).toNat ≤ (start 1 [(0x11FC, 2)]).elem 127 ∧
      (∀ i, i < 128 → 0 ≤ (start 1 [(0x11FC, 2)]).deltaAt i) ∧
      2 ^ (1#6).toNat ≤ (start 1 [(0x11FC, 2)]).deltaAt 127 ∧
      ¬ InBuffer ((start 1 [(0x11FC, 2)]).pkdAddr.toNat, 16 * (1#6).toNat) 0x2010 := by
  unfold InBuffer; decide +kernel

theorem witness_UnpackResult :
    (start 32 []).BlockUsable 512 ∧ (start 32 []).PackedUsable (32#6).toNat ∧
      (start 0 []).PackedUsable (0#6).toNat := by decide +kernel

theorem witness_UnpackDResult :
    (start 0 []).BlockUsable 512 ∧ (start 0 []).PackedUsable (0#6).toNat ∧
      (start 0 []).sumAt (0#6).toNat 127 < 2 ^ 32 := by decide +kernel

theorem witness_WidthZeroCommands :
    ((start 0 []).BlockUsable 512 ∧ (start 0 []).pkdLen = 0#32 ∧
        ∀ i, i < 128 → 0 ≤ (start 0 []).deltaAt i) ∧
      (State.BlockUsable { start 0 [] with offset := 1#32 } 512 ∧
        State.deltaAt { start 0 [] with offset := 1#32 } 0 < 0) ∧
      (start 1 []).pkdLen ≠ 0#32 ∧ Instr.pack 0 ∈ [Instr.pack 0, .packM 0, .packD 0, .unpackD 0] := by
  decide +kernel

theorem witness_SearchDFound :
    1 ≤ (128#8).toNat ∧ (128#8).toNat ≤ 128 ∧ State.PackedUsable { fiveAtOne with key := 5#32 } (3#6).toNat ∧
      FirstAtLeastKey { fiveAtOne with key := 5#32 } (3#6).toNat (128#8).toNat 1 ∧
      State.sumAt { fiveAtOne with key := 5#32 } (3#6).toNat 1 < 2 ^ 32 := by
  unfold FirstAtLeastKey; decide +kernel

theorem witness_SearchDNotFound :
    1 ≤ (128#8).toNat ∧ (128#8).toNat ≤ 128 ∧ State.PackedUsable { start 0 [] with key := 1#32 } (0#6).toNat ∧
      ∀ j, j < (128#8).toNat →
        State.sumAt { start 0 [] with key := 1#32 } (0#6).toNat j <
          (State.key { start 0 [] with key := 1#32 }).toNat := by
  decide +kernel

theorem witness_SelectDResult :
    ((127#8).toNat ≤ 127 ∧ (start 0 []).PackedUsable (0#6).toNat ∧
        (start 0 []).sumAt (0#6).toNat (127#8).toNat < 2 ^ 32) ∧
      fiveAtOne.PackedUsable (3#6).toNat ∧ fiveAtOne.sumAt (3#6).toNat (1#8).toNat < 2 ^ 32 := by decide +kernel

/-- The hypotheses of BitPositionsAreBijective, with both ends of the range of widths. -/
theorem witness_BitPositionsAreBijective :
    (1 ≤ 1 ∧ 1 ≤ 32 ∧ 127 < 128 ∧ 0 < 1) ∧ 1 ≤ 32 ∧ 32 ≤ 32 ∧ 31 < 32 ∧
      bitPos .horizontal 32 127 31 = bitPos .lane4 32 127 31 := by decide

/-- The hypotheses of PackedBitsAtTheirPositions, with both ends of the range of widths. -/
theorem witness_PackedBitsAtTheirPositions :
    ((List.replicate 128 1).length = 128 ∧ (∀ v ∈ List.replicate 128 1, v < 2 ^ 1)) ∧
      ((List.replicate 128 0xFFFFFFFF).length = 128 ∧ ∀ v ∈ List.replicate 128 0xFFFFFFFF, v < 2 ^ 32) ∧
      (List.replicate 32 1#128).length = 32 := by decide +kernel

/-- The hypotheses of PackUnpackInverse, with both ends of the range of widths. -/
theorem witness_PackUnpackInverse :
    ((List.replicate 128 0).length = 128 ∧ (∀ v ∈ List.replicate 128 0, v < 2 ^ 0)) ∧
      ((List.replicate 128 0xFFFFFFFF).length = 128 ∧ ∀ v ∈ List.replicate 128 0xFFFFFFFF, v < 2 ^ 32) ∧
      ([] : List PackedWord).length = 0 ∧ (List.replicate 32 1#128).length = 32 := by decide +kernel

/-- The hypotheses of LayoutsCoincide, and constants on either side of its condition: T39d's block; width 6
with alternating bits; width 3, where the condition fails; both ends of the range of widths. -/
theorem witness_LayoutsCoincide :
    ((List.replicate 128 7).length = 128 ∧ ∀ v ∈ List.replicate 128 7, v < 2 ^ 32) ∧
      (0x1FFF < 2 ^ 13 ∧ ∀ k, k < 13 → Nat.testBit 0x1FFF k = Nat.testBit 0x1FFF ((k + 32) % 13)) ∧
      (0x15 < 2 ^ 6 ∧ ∀ k, k < 6 → Nat.testBit 0x15 k = Nat.testBit 0x15 ((k + 32) % 6)) ∧
      (5 < 2 ^ 3 ∧ ¬ ∀ k, k < 3 → Nat.testBit 5 k = Nat.testBit 5 ((k + 32) % 3)) ∧
      (7 < 2 ^ 32 ∧ ∀ k, k < 32 → Nat.testBit 7 k = Nat.testBit 7 ((k + 32) % 32)) ∧ 0 < 2 ^ 0 := by
  decide +kernel

/-- T39d under both layouts. -/
theorem test_constant_block_agrees :
    packWords .lane4 13 (List.replicate 128 0x1FFF) = List.replicate 13 (BitVec.allOnes 128) ∧
      packWords .horizontal 13 (List.replicate 128 0x1FFF) = List.replicate 13 (BitVec.allOnes 128) := by
  decide +kernel

/-- R75 law 5 contradicts R71 and R74 (log entry 16): width 3, constant 5. -/
theorem test_constant_block_differs :
    packWords .horizontal 3 (List.replicate 128 5) ≠ packWords .lane4 3 (List.replicate 128 5) := by
  decide +kernel

/-- The hypotheses of UnpackedValueDependsOnTwoWords: two buffers that differ in a word element 0 does not
touch. -/
theorem witness_UnpackedValueDependsOnTwoWords :
    [5#128, 0#128].length = 2 ∧ [5#128, 1#128].length = 2 ∧
      [5#128, 0#128].getD (0 * 2 / 128) 0#128 = [5#128, 1#128].getD (0 * 2 / 128) 0#128 ∧
      [5#128, 0#128].getD ((0 * 2 + 2 - 1) / 128) 0#128 = [5#128, 1#128].getD ((0 * 2 + 2 - 1) / 128) 0#128 ∧
      [5#128, 0#128].getD ((0 / 4 * 2 + 2 - 1) / 32) 0#128 =
        [5#128, 1#128].getD ((0 / 4 * 2 + 2 - 1) / 32) 0#128 := by decide

theorem witness_RawRoundTrip :
    ((start 5 [(0x1064, 0x1F)]).BlockUsable 512 ∧ (start 5 [(0x1064, 0x1F)]).PackedUsable (5#6).toNat ∧
        ∀ i, i < 128 → (start 5 [(0x1064, 0x1F)]).elem i < 2 ^ (5#6).toNat) ∧
      State.BlockUsable { after (.pack 5) (start 5 [(0x1064, 0x1F)]) with blkAddr := 0x3000#32 } 512 := by
  decide +kernel

theorem witness_DeltaRoundTrip :
    ((start 3 [(0x11FC, 5)]).BlockUsable 512 ∧ (start 3 [(0x11FC, 5)]).PackedUsable (3#6).toNat ∧
        ∀ i, i < 128 → 0 ≤ (start 3 [(0x11FC, 5)]).deltaAt i ∧
          (start 3 [(0x11FC, 5)]).deltaAt i < 2 ^ (3#6).toNat) ∧
      State.BlockUsable { after (.packD 3) (start 3 [(0x11FC, 5)]) with blkAddr := 0x3000#32 } 512 := by
  decide +kernel

/-- The hypotheses of SelectAgreement at width 0, where every delta is 0. -/
theorem witness_SelectAgreement :
    (start 0 []).BlockUsable 512 ∧ (start 0 []).PackedUsable (0#6).toNat ∧
      (∀ i, i < 128 → 0 ≤ (start 0 []).deltaAt i ∧ (start 0 []).deltaAt i < 2 ^ (0#6).toNat) ∧
      (127#8).toNat ≤ 127 := by decide +kernel

/-- The hypotheses of LowerBoundLaw at width 32, both ends of the lengths. -/
theorem witness_LowerBoundLaw :
    (start 32 [(0x11FF, 0xFF)]).BlockUsable 512 ∧ (start 32 [(0x11FF, 0xFF)]).PackedUsable (32#6).toNat ∧
      (∀ i, i < 128 → 0 ≤ (start 32 [(0x11FF, 0xFF)]).deltaAt i ∧
        (start 32 [(0x11FF, 0xFF)]).deltaAt i < 2 ^ (32#6).toNat) ∧
      1 ≤ (1#8).toNat ∧ (1#8).toNat ≤ 128 ∧ 1 ≤ (128#8).toNat ∧ (128#8).toNat ≤ 128 := by decide +kernel

/-- The hypotheses of ReadersAgree: the three readers complete, the search finding index 0. -/
theorem witness_ReadersAgree :
    statusState (after (.unpackD 0) (start 0 [])).status = 1 ∧
      statusState (after (.selectD 0 0) (start 0 [])).status = 1 ∧
      statusState (after (.searchD 0 1) (start 0 [])).status = 1 ∧
      (after (.searchD 0 1) (start 0 [])).res0.toNat = (0#8).toNat ∧ (0#8).toNat < (1#8).toNat ∧
      (start 0 []).BlockUsable 512 := by decide +kernel

/-- The hypotheses of BuffersAreLittleEndian at the ends of its ranges. -/
theorem witness_BuffersAreLittleEndian :
    (0 < [0x01020304].length ∧ 3 < 4) ∧ 1 < [5#128, 6#128].length ∧ 15 < 16 := by decide

/-- R68: the element's bytes 4, 3, 2, 1 at rising addresses are 0x01020304. -/
theorem test_element_bytes : (start 0 [(0x1000, 4), (0x1001, 3), (0x1002, 2), (0x1003, 1)]).elem 0 = 0x01020304 := by
  decide +kernel

/-- R211: the eight numbers. -/
theorem test_fault_codes :
    [ErrCode.errOp, .errWidth, .errArg, .errSize, .errAlign, .errAddr, .errOrder, .errRange].map ErrCode.code =
      [1, 2, 3, 4, 5, 6, 7, 8] := by decide

end Sys2Proof.Tests
end

section
/-! The statements of 10_state.md about the host's side: register reads and writes, `CAP`, reset. -/

namespace Sys2Proof.Machine

/-! ### Offsets and registers -/

@[simp] theorem regNameAt_byteOffset (r : RegName) : regNameAt r.byteOffset = some r := by
  cases r <;> rfl

theorem byteOffset_of_regNameAt {off : Word} {r : RegName} (h : regNameAt off = some r) :
    r.byteOffset = off := by
  simpa using List.find?_some h

/-- A host read at a register's offset (10_state.md R33). -/
theorem State.regRead_of_eq_byteOffset (s : State) (r : RegName) {off : Word} (h : off = r.byteOffset) :
    s.regRead off = s.reg r := by
  rw [State.regRead, h, regNameAt_byteOffset]

/-- A host read at an offset that is no register's (R33). -/
theorem State.regRead_of_no_register (s : State) {off : Word} (h : ∀ r : RegName, r.byteOffset ≠ off) :
    s.regRead off = 0#32 := by
  cases hr : regNameAt off with
  | none => rw [State.regRead, hr]
  | some r => exact absurd (byteOffset_of_regNameAt hr) (h r)

/-- A host write at a register's offset (R34). -/
theorem hostRegWrite_of_eq_byteOffset (r : RegName) (v : Word) (s : State) {off : Word}
    (h : off = r.byteOffset) : hostRegWrite off v s = writeReg r v s := by
  rw [hostRegWrite, h, regNameAt_byteOffset]

/-- What a host write at any offset is: the write of a register, or nothing (R34). -/
theorem hostRegWrite_cases (off v : Word) (s : State) :
    (∃ r : RegName, r.byteOffset = off ∧ hostRegWrite off v s = writeReg r v s) ∨
      hostRegWrite off v s = .next s := by
  cases hr : regNameAt off with
  | none => exact .inr (by rw [hostRegWrite, hr])
  | some r => exact .inl ⟨r, byteOffset_of_regNameAt hr, by rw [hostRegWrite, hr]⟩

/-- A host write away from `CMD`, `STATUS` and the five operand registers does nothing (R34). -/
theorem hostRegWrite_ignored {off : Word} (v : Word) (s : State)
    (h : off ∉ [0x00#32, 0x04#32, 0x08#32, 0x0C#32, 0x10#32, 0x14#32, 0x18#32]) :
    hostRegWrite off v s = .next s := by
  obtain ⟨r, rfl, hw⟩ | hw := hostRegWrite_cases off v s
  · rw [hw]
    cases r with
    | res0 => rfl
    | res1 => rfl
    | cap => rfl
    | _ => exact absurd h (by decide)
  · exact hw

/-! ### What a host write keeps -/

/-- Clearing `SFAULT` touches bit 8 of `STATUS` alone (10_state.md R24). -/
theorem getLsbD_statusWritten (w v : Word) {k : Nat} (hk : k ≠ 8) :
    (statusWritten w v).getLsbD k = v.getLsbD k := by
  rw [BitVec.getLsbD, BitVec.getLsbD, toNat_statusWritten]
  split
  · rw [show v.toNat / 512 * 512 + v.toNat % 256 = 2 ^ 9 * (v.toNat / 2 ^ 9) + v.toNat % 2 ^ 8 by omega,
      Nat.testBit_two_pow_mul_add _ (by omega)]
    split
    · rw [Nat.testBit_mod_two_pow, decide_eq_true (by omega), Bool.true_and]
    · rw [Nat.testBit_div_two_pow, Nat.sub_add_cancel (by omega)]
  · rfl

/-- What only a command may change: the results, the memory, `STATE` and `ERR`, and setting `SFAULT` (R34). -/
def KeepsOutcome (s t : State) : Prop :=
  t.res0 = s.res0 ∧ t.res1 = s.res1 ∧ t.mem = s.mem ∧ statusState t.status = statusState s.status ∧
    statusErr t.status = statusErr s.status ∧ (statusSfault t.status = 1 → statusSfault s.status = 1)

theorem KeepsOutcome.of_status_eq {s t : State} (h0 : t.res0 = s.res0) (h1 : t.res1 = s.res1)
    (hm : t.mem = s.mem) (hs : t.status = s.status) : KeepsOutcome s t :=
  ⟨h0, h1, hm, by rw [hs], by rw [hs], by rw [hs]; exact id⟩

/-- A write of a register other than `CMD` ends, and keeps what only a command may change (R34). -/
theorem writeReg_keepsOutcome {r : RegName} (v : Word) (s : State) (hr : r ≠ .cmd) :
    ∃ t, writeReg r v s = .next t ∧ KeepsOutcome s t := by
  cases r with
  | cmd => exact absurd rfl hr
  | status =>
    refine ⟨_, rfl, rfl, rfl, rfl, statusState_written _ _, statusErr_written _ _, fun h => ?_⟩
    rw [statusSfault_written] at h
    split at h
    · exact absurd h (by decide)
    · exact h
  | _ => exact ⟨_, rfl, .of_status_eq rfl rfl rfl rfl⟩

/-- A host write away from offset 0 ends, and keeps what only a command may change (R34). -/
theorem hostRegWrite_keepsOutcome {off : Word} (v : Word) (s : State) (h : off ≠ 0x00#32) :
    ∃ t, hostRegWrite off v s = .next t ∧ KeepsOutcome s t := by
  obtain ⟨r, rfl, hw⟩ | hw := hostRegWrite_cases off v s
  · rw [hw]
    exact writeReg_keepsOutcome v s (by rintro rfl; exact h rfl)
  · exact ⟨s, hw, .of_status_eq rfl rfl rfl rfl⟩

/-! ### Commands and steps -/

/-- A word runs as its command, or enters `ERR_OP` (30_encoding.md R90). -/
theorem executeWord_cases (v : Word) (s : State) :
    (∃ i, decode v = .ok i ∧ executeWord v s = exec i s) ∨ executeWord v s = .next (s.raise .errOp) := by
  unfold executeWord
  cases decode v with
  | ok i => exact .inl ⟨i, rfl, rfl⟩
  | error e => cases e; exact .inr rfl

/-- Every command ends in a next state, completed or faulted (60_exceptions.md R213, R214). -/
theorem exec_ends (i : Instr) (s : State) :
    ∃ t, exec i s = .next t ∧ (statusState t.status = 1 ∨ statusState t.status = 2) := by
  obtain ⟨c, -, hx⟩ | ⟨t, -, -, hx⟩ := exec_cases i s
  · exact ⟨_, hx, .inr (statusState_fault _ _)⟩
  · exact ⟨_, hx, .inl (statusState_done _)⟩

/-- Every word, a command's or not, ends so. -/
theorem executeWord_ends (v : Word) (s : State) :
    ∃ t, executeWord v s = .next t ∧ (statusState t.status = 1 ∨ statusState t.status = 2) := by
  obtain ⟨i, -, he⟩ | he := executeWord_cases v s
  · rw [he]; exact exec_ends i s
  · exact ⟨_, he, .inr (statusState_fault _ _)⟩

/-- After a command `STATE` is DONE or FAULT. -/
theorem AfterCommand.statusState {s t : State} (h : AfterCommand s t) :
    statusState t.status = 1 ∨ statusState t.status = 2 := by
  obtain ⟨i, hx⟩ | ⟨v, hx⟩ := h
  · obtain ⟨u, hu, hstate⟩ := exec_ends i s
    cases hx.symm.trans hu
    exact hstate
  · obtain ⟨u, hu, hstate⟩ := executeWord_ends v s
    cases hx.symm.trans hu
    exact hstate

/-- A step takes the next host action off the script and runs it (log entry 1). -/
theorem step_of_script {s : State} {a : HostAction} {rest : List HostAction} (h : s.script = a :: rest) :
    step s = runAction a { s with script := rest } := by
  rw [step, runNextAction, h]

/-! ### The statements -/

/-- Settles O10: offset by offset, the write of the register there; away from `CMD` the frame is that of
`hostRegWrite_keepsOutcome`. -/
theorem hostRegisterWrites : Obligations.HostRegisterWrites := by
  intro s off v rest h
  have hstep : step s = hostRegWrite off v { s with script := rest } := step_of_script h
  have hwrite := fun r => hostRegWrite_of_eq_byteOffset r v { s with script := rest } (off := off)
  rw [hstep]
  refine ⟨hwrite .cmd, fun hoff => ?status, hwrite .offset, hwrite .key, hwrite .blkAddr, hwrite .pkdAddr,
    hwrite .pkdLen, hostRegWrite_ignored v _, ?frame⟩
  case status =>
    exact ⟨_, hwrite .status hoff, rfl, statusSfault_written v s.status,
      fun k => getLsbD_statusWritten v s.status⟩
  case frame =>
    by_cases hoff : off = 0x00#32
    · obtain ⟨t, ht, -⟩ := executeWord_ends v { s with script := rest, cmd := v }
      exact ⟨t, (hwrite .cmd hoff).trans ht, fun h0 => absurd hoff h0⟩
    · obtain ⟨t, ht, hkeeps⟩ := hostRegWrite_keepsOutcome v { s with script := rest } hoff
      exact ⟨t, ht, fun _ => hkeeps⟩

/-- The registers after reset (10_state.md R39). -/
theorem State.reset_reg (r : RegName) :
    State.reset.reg r = if r = .cap then 0x00000001#32 else 0x00000000#32 := by
  cases r <;> rfl

/-- A reset action gives the registers of the state after reset (70_reset_and_hazards.md R250). -/
theorem State.resetRegs_reg (s : State) (r : RegName) : s.resetRegs.reg r = State.reset.reg r := by
  cases r <;> rfl

/-- Settles O13: a reset action gives the registers of the reset state, and no command ends in IDLE. -/
theorem resetGivesResetValues : Obligations.ResetGivesResetValues := by
  refine ⟨fun s rest h => ⟨_, step_of_script h, rfl, rfl, rfl, fun r => ?_, ?_⟩, State.reset_reg, ?_⟩
  · rw [State.resetRegs_reg, State.reset_reg]
  · rw [State.resetRegs_status]; decide
  · intro s t h
    have hstate := h.statusState
    omega

/-- Settles O11: a read gives `State.regRead`, which is the register at each of the ten offsets. -/
theorem hostRegisterReads : Obligations.HostRegisterReads := by
  intro s off rest h
  have hread := fun r => s.regRead_of_eq_byteOffset r (off := off)
  refine ⟨s.regRead off, step_of_script h, hread .cmd, hread .status, hread .offset, hread .key, hread .blkAddr,
    hread .pkdAddr, hread .pkdLen, hread .res0, hread .res1, hread .cap, fun hoff => ?_⟩
  refine s.regRead_of_no_register ?_
  rintro r rfl
  exact hoff (by cases r <;> decide)

/-- Settles O15: in a legal state `CAP` holds its constant, whose two fields and reserved bits compute, and the
host's writes ignore it. -/
theorem capReadsItsConstant : Obligations.CapReadsItsConstant := by
  refine ⟨fun s h => ?_, by decide, by decide, by decide, fun v s => hostRegWrite_ignored v s (by decide)⟩
  obtain ⟨-, -, -, -, hcap⟩ := h
  have hread : s.regRead 0x24#32 = s.cap := s.regRead_of_eq_byteOffset .cap rfl
  rw [hread, hcap]
  decide

end Sys2Proof.Machine
end

section
/-! The statements of 10_state.md about inputs: a command's outcome depends on what the spec lists (R31). -/

namespace Sys2Proof.Machine

/-! ### Memories that agree on the bytes read, or that are written alike -/

theorem Memory.loadBlock_congr {m m' : Memory} {a n : Nat}
    (h : ∀ c, a ≤ c → c < a + 4 * n → m.read c = m'.read c) : m.loadBlock a n = m'.loadBlock a n := by
  refine List.map_congr_left fun i hi => Memory.readLE_congr fun c h1 h2 => ?_
  have hi := List.mem_range.1 hi
  exact h c (by omega) (by omega)

theorem Memory.loadPacked_congr {m m' : Memory} {a b : Nat}
    (h : ∀ c, a ≤ c → c < a + 16 * b → m.read c = m'.read c) : m.loadPacked a b = m'.loadPacked a b := by
  refine List.map_congr_left fun w hw => congrArg (BitVec.ofNat 128) (Memory.readLE_congr fun c h1 h2 => ?_)
  have hw := List.mem_range.1 hw
  exact h c (by omega) (by omega)

/-- Writing the same number at the same place into two memories makes them alike there, and keeps them alike
where they were. -/
theorem Memory.read_writeLE_congr {m m' : Memory} {a n v c : Nat}
    (h : m.read c = m'.read c ∨ (a ≤ c ∧ c < a + n)) :
    (m.writeLE a n v).read c = (m'.writeLE a n v).read c := by
  induction n generalizing m m' a v with
  | zero => exact h.resolve_right (by omega)
  | succ n ih =>
    refine ih ?_
    rw [Memory.read_write, Memory.read_write]
    by_cases hc : c = a
    · simp [hc]
    · simpa [hc] using h.imp_right fun h => by omega

theorem Memory.read_storeBlock_congr {m m' : Memory} {a c : Nat} {xs : List Nat}
    (h : m.read c = m'.read c ∨ (a ≤ c ∧ c < a + 4 * xs.length)) :
    (m.storeBlock a xs).read c = (m'.storeBlock a xs).read c := by
  induction xs generalizing m m' a with
  | nil => exact h.resolve_right (by simp)
  | cons x xs ih =>
    rw [List.length_cons] at h
    by_cases hc : a + 4 ≤ c
    · exact ih (h.imp (fun h => Memory.read_writeLE_congr (.inl h)) (by omega))
    · exact ih (.inl (Memory.read_writeLE_congr (h.imp_right (by omega))))

theorem Memory.read_storePacked_congr {m m' : Memory} {a c : Nat} {ws : List PackedWord}
    (h : m.read c = m'.read c ∨ (a ≤ c ∧ c < a + 16 * ws.length)) :
    (m.storePacked a ws).read c = (m'.storePacked a ws).read c := by
  induction ws generalizing m m' a with
  | nil => exact h.resolve_right (by simp)
  | cons w ws ih =>
    rw [List.length_cons] at h
    by_cases hc : a + 16 ≤ c
    · exact ih (h.imp (fun h => Memory.read_writeLE_congr (.inl h)) (by omega))
    · exact ih (.inl (Memory.read_writeLE_congr (h.imp_right (by omega))))

/-! ### What two states with the same inputs have in common -/

theorem blkAddr_mem_registersReadBy {i : Instr} {n : Nat} (h : blockBytesOf i = some n) :
    .blkAddr ∈ registersReadBy i := by
  cases i <;> grind [blockBytesOf, registersReadBy]

theorem pkdLen_mem_registersReadBy {i : Instr} {b : Nat} (h : widthFieldOf i = some b) :
    .pkdLen ∈ registersReadBy i := by
  cases i <;> grind [widthFieldOf, registersReadBy]

theorem pkdAddr_mem_registersReadBy {i : Instr} {b : Nat} (h : widthFieldOf i = some b) (hb : b ≠ 0) :
    .pkdAddr ∈ registersReadBy i := by
  cases i <;> grind [widthFieldOf, registersReadBy]

/-- The checks look only at the existing addresses and at the operand registers of the buffers in use. -/
theorem firstFault_congr {s s' : State} {w : Option WField} {blk : Option Nat} (argOk : Bool)
    (hbacked : s.backed = s'.backed) (hlen : ∀ b, w.map BitVec.toNat = some b → s.pkdLen = s'.pkdLen)
    (hpkd : ∀ b, w.map BitVec.toNat = some b → b ≠ 0 → s.pkdAddr = s'.pkdAddr)
    (hblk : ∀ n, blk = some n → s.blkAddr = s'.blkAddr) :
    firstFault s w argOk blk = firstFault s' w argOk blk := by
  have hsize : sizeOk s w = sizeOk s' w := by
    cases w with
    | none => rfl
    | some w => simp [sizeOk, hlen w.toNat rfl]
  have hblock : blockAligned s blk = blockAligned s' blk ∧ blockExists s blk = blockExists s' blk := by
    cases blk with
    | none => exact ⟨rfl, rfl⟩
    | some n => simp [blockAligned, blockExists, hbacked, hblk n rfl]
  have hpacked : packedAligned s w = packedAligned s' w ∧ packedExists s w = packedExists s' w := by
    cases w with
    | none => exact ⟨rfl, rfl⟩
    | some w =>
      by_cases hw : w.toNat = 0
      · simp [packedAligned, packedExists, hw]
      · simp [packedAligned, packedExists, hbacked, hpkd w.toNat rfl hw]
  simp only [firstFault, hsize, hblock, hpacked]

section
variable {i : Instr} {s s' : State}

theorem SameInputs.reg_eq (h : SameInputs i s s') {r : RegName} (hr : r ∈ registersReadBy i) :
    s.reg r = s'.reg r := by
  obtain ⟨-, -, hreg, -⟩ := h
  exact hreg r hr

theorem SameInputs.draws_eq (h : SameInputs i s s') : s.draws = s'.draws := by
  obtain ⟨-, hdraws, -, -⟩ := h
  exact hdraws

theorem SameInputs.blkAddr_eq (h : SameInputs i s s') {n : Nat} (hn : blockBytesOf i = some n) :
    s.blkAddr = s'.blkAddr := h.reg_eq (blkAddr_mem_registersReadBy hn)

theorem SameInputs.pkdAddr_eq (h : SameInputs i s s') {b : Nat} (hw : widthFieldOf i = some b) (hb : b ≠ 0) :
    s.pkdAddr = s'.pkdAddr := h.reg_eq (pkdAddr_mem_registersReadBy hw hb)

/-- The checks made before anything is read have the same outcome. -/
theorem SameInputs.earlyOf_eq (h : SameInputs i s s') : earlyOf i s = earlyOf i s' := by
  have hlen : ∀ b, widthFieldOf i = some b → s.pkdLen = s'.pkdLen := fun b hw =>
    h.reg_eq (pkdLen_mem_registersReadBy hw)
  have hpkd : ∀ b, widthFieldOf i = some b → b ≠ 0 → s.pkdAddr = s'.pkdAddr := fun b => h.pkdAddr_eq
  have hblk : ∀ n, blockBytesOf i = some n → s.blkAddr = s'.blkAddr := fun n => h.blkAddr_eq
  obtain ⟨hbacked, -, -, -⟩ := h
  cases i <;> exact firstFault_congr _ hbacked hlen hpkd hblk

/-- The same elements are read, by a command whose source is the first `n` elements of the block buffer. -/
theorem SameInputs.elements_eq (h : SameInputs i s s') {n : Nat} (hn : blockBytesOf i = some (4 * n))
    (hsrc : sourceOf i s = (s.blkAddr.toNat, 4 * n)) : s.elements n = s'.elements n := by
  have hblk := h.blkAddr_eq hn
  obtain ⟨-, -, -, hmem⟩ := h
  rw [hsrc] at hmem
  rw [State.elements, State.elements, ← hblk]
  exact Memory.loadBlock_congr fun c h1 h2 => hmem c ⟨h1, h2⟩

/-- The same values are read, by a command whose source is the packed buffer; at width 0 there is nothing to
read, so that `PKD_ADDR` may differ (20_memory.md R67). -/
theorem SameInputs.unpacked_eq (h : SameInputs i s s') {b : Nat} (hw : widthFieldOf i = some b)
    (hsrc : sourceOf i s = (s.pkdAddr.toNat, 16 * b)) : s.unpacked b = s'.unpacked b := by
  by_cases hb : b = 0
  · simp [State.unpacked, Memory.loadPacked, hb]
  · have hpkd := h.pkdAddr_eq hw hb
    obtain ⟨-, -, -, hmem⟩ := h
    rw [hsrc] at hmem
    rw [State.unpacked, State.unpacked, ← hpkd]
    exact congrArg (unpackWords Config.layout b) (Memory.loadPacked_congr fun c h1 h2 => hmem c ⟨h1, h2⟩)

theorem SameInputs.reconstructed_eq (h : SameInputs i s s') {b : Nat} (hw : widthFieldOf i = some b)
    (hsrc : sourceOf i s = (s.pkdAddr.toNat, 16 * b)) (hoff : .offset ∈ registersReadBy i) :
    s.reconstructed b = s'.reconstructed b := by
  have hoff : s.offset = s'.offset := h.reg_eq hoff
  rw [State.reconstructed, State.reconstructed, h.unpacked_eq hw hsrc, hoff]

end

/-! ### Bodies that end alike -/

/-- Two ends of the body of a command run in `s`, and in a state with the same inputs: the same fault, or the
same result registers and the same bytes in the destination buffer (10_state.md R31). -/
def BodiesAgree (i : Instr) (s : State) : Except ErrCode State → Except ErrCode State → Prop
  | .error c, .error c' => c = c'
  | .ok t, .ok t' =>
    (∀ r ∈ resultsOf i, t.reg r = t'.reg r) ∧
      ∀ a, InBuffer (destinationOf i s) a → t.mem.read a = t'.mem.read a
  | _, _ => False

theorem BodiesAgree.error (i : Instr) (s : State) (c : ErrCode) : BodiesAgree i s (.error c) (.error c) := rfl

theorem BodiesAgree.ite {i : Instr} {s : State} {x x' y y' : Except ErrCode State} {p : Prop} [Decidable p]
    (hx : p → BodiesAgree i s x x') (hy : ¬ p → BodiesAgree i s y y') :
    BodiesAgree i s (if p then x else y) (if p then x' else y') := by
  by_cases hp : p
  · rw [if_pos hp, if_pos hp]; exact hx hp
  · rw [if_neg hp, if_neg hp]; exact hy hp

/-- A command without a destination buffer: the result registers are all there is to compare. -/
theorem BodiesAgree.of_results {i : Instr} {s t t' : State} (hdest : destinationOf i s = (0, 0))
    (hres : ∀ r ∈ resultsOf i, t.reg r = t'.reg r) : BodiesAgree i s (.ok t) (.ok t') := by
  refine ⟨hres, fun a ha => ?_⟩
  rw [hdest] at ha
  exact absurd ha.2 (by simp)

/-- A command that stores 128 elements at `BLK_ADDR`. -/
theorem BodiesAgree.storeElements {i : Instr} {s s' : State} {xs : List Nat} (hblk : s.blkAddr = s'.blkAddr)
    (hlen : xs.length = 128) (hres : resultsOf i = [])
    (hdest : destinationOf i s = (s.blkAddr.toNat, 512)) :
    BodiesAgree i s (.ok (s.storeElements xs)) (.ok (s'.storeElements xs)) := by
  refine ⟨by simp [hres], fun a ha => ?_⟩
  rw [hdest] at ha
  obtain ⟨h1, h2⟩ := ha
  rw [State.storeElements_mem, State.storeElements_mem, ← hblk]
  exact Memory.read_storeBlock_congr (.inr ⟨h1, by rw [hlen]; exact h2⟩)

/-- A command that stores `b` packed words at `PKD_ADDR`, the address being the same unless there are none. -/
theorem BodiesAgree.storePacked {i : Instr} {s s' t t' : State} {ws : List PackedWord}
    (ht : t.mem = s.mem.storePacked s.pkdAddr.toNat ws) (ht' : t'.mem = s'.mem.storePacked s'.pkdAddr.toNat ws)
    (hpkd : ws.length ≠ 0 → s.pkdAddr = s'.pkdAddr) (hres : resultsOf i = [])
    (hdest : destinationOf i s = (s.pkdAddr.toNat, 16 * ws.length)) : BodiesAgree i s (.ok t) (.ok t') := by
  refine ⟨by simp [hres], fun a ha => ?_⟩
  rw [hdest] at ha
  obtain ⟨h1, h2⟩ : s.pkdAddr.toNat ≤ a ∧ a < s.pkdAddr.toNat + 16 * ws.length := ha
  have hpkd := hpkd (by omega)
  rw [ht, ht', ← hpkd]
  exact Memory.read_storePacked_congr (.inr ⟨h1, h2⟩)

theorem BodiesAgree.storeValues {i : Instr} {s s' : State} {b : Nat} {vs : List Nat}
    (hpkd : b ≠ 0 → s.pkdAddr = s'.pkdAddr) (hres : resultsOf i = [])
    (hdest : destinationOf i s = (s.pkdAddr.toNat, 16 * b)) :
    BodiesAgree i s (.ok (s.storeValues b vs)) (.ok (s'.storeValues b vs)) :=
  .storePacked rfl rfl (by simpa using hpkd) hres (by simpa using hdest)

theorem BodiesAgree.storeUnmasked {i : Instr} {s s' : State} {b : Nat} {vs : List Nat}
    (hdraws : s.draws = s'.draws) (hpkd : b ≠ 0 → s.pkdAddr = s'.pkdAddr) (hres : resultsOf i = [])
    (hdest : destinationOf i s = (s.pkdAddr.toNat, 16 * b)) :
    BodiesAgree i s (.ok (s.storeUnmasked b vs)) (.ok (s'.storeUnmasked b vs)) := by
  by_cases hfit : allFit b vs
  · rw [State.storeUnmasked, State.storeUnmasked, if_pos hfit, if_pos hfit]
    exact .storeValues hpkd hres hdest
  · rw [State.storeUnmasked, State.storeUnmasked, if_neg hfit, if_neg hfit]
    exact .storePacked rfl (by rw [hdraws]; rfl) (by simpa using hpkd) hres (by simpa using hdest)

/-- A command that puts the width of the first `n` deltas into `RES0`. -/
theorem BodiesAgree.deltaWidth {i : Instr} {s s' : State} {n : Nat} (hoff : s.offset = s'.offset)
    (hel : s.elements n = s'.elements n) (hres : resultsOf i = [.res0]) (hdest : destinationOf i s = (0, 0)) :
    BodiesAgree i s (deltaWidth s n) (deltaWidth s' n) := by
  rw [Machine.deltaWidth, Machine.deltaWidth, hoff, hel]
  exact .ite (fun _ => .of_results hdest (by simp [hres, State.reg])) (fun _ => .error _ _ _)

/-- Whatever a command's body reads is among its inputs. -/
theorem SameInputs.bodiesAgree {i : Instr} {s s' : State} (h : SameInputs i s s') :
    BodiesAgree i s (bodyOf i s) (bodyOf i s') := by
  have hdraws := h.draws_eq
  cases i with
  | maxbits =>
    exact .of_results rfl (by simp [resultsOf, State.reg, h.elements_eq (n := 128) rfl rfl])
  | maxbitsD =>
    exact .deltaWidth (h.reg_eq (r := .offset) (by simp [registersReadBy])) (h.elements_eq rfl rfl) rfl rfl
  | maxbitsDL n =>
    exact .deltaWidth (h.reg_eq (r := .offset) (by simp [registersReadBy])) (h.elements_eq rfl rfl) rfl rfl
  | pack w =>
    rw [bodyOf, bodyOf, h.elements_eq rfl rfl]
    exact .storeUnmasked hdraws (h.pkdAddr_eq rfl) rfl rfl
  | packM w =>
    rw [bodyOf, bodyOf, h.elements_eq rfl rfl]
    exact .storeValues (h.pkdAddr_eq rfl) rfl rfl
  | packD w =>
    have hoff : s.offset = s'.offset := h.reg_eq (r := .offset) (by grind [registersReadBy])
    rw [bodyOf, bodyOf, h.elements_eq rfl rfl, hoff]
    exact .ite (fun _ => .storeUnmasked hdraws (h.pkdAddr_eq rfl) rfl rfl) (fun _ => .error _ _ _)
  | unpack w =>
    rw [bodyOf, bodyOf, h.unpacked_eq rfl rfl]
    exact .storeElements (h.blkAddr_eq rfl) (by simp) rfl rfl
  | unpackD w =>
    rw [bodyOf, bodyOf, h.reconstructed_eq rfl rfl (by grind [registersReadBy])]
    exact .ite (fun _ => .storeElements (h.blkAddr_eq rfl) (by simp) rfl rfl) (fun _ => .error _ _ _)
  | selectD w n =>
    rw [bodyOf, bodyOf, h.reconstructed_eq rfl rfl (by grind [registersReadBy])]
    exact .ite (fun _ => .of_results rfl (by simp [resultsOf, State.reg])) (fun _ => .error _ _ _)
  | searchD w n =>
    have hkey : s.key = s'.key := h.reg_eq (r := .key) (by grind [registersReadBy])
    rw [bodyOf, bodyOf, searchIndex, searchIndex, h.reconstructed_eq rfl rfl (by grind [registersReadBy]), hkey]
    refine .ite (fun _ => .ite (fun _ => ?found) (fun _ => .error _ _ _)) (fun _ => ?notFound)
    case found => exact .of_results rfl (by simp [resultsOf, State.reg])
    case notFound => exact .of_results rfl (by simp [resultsOf, State.reg, hdraws])

/-! ### The outcome of the whole command -/

theorem State.complete_reg (s : State) {r : RegName} (hr : r ≠ .status) : s.complete.reg r = s.reg r := by
  cases r with
  | status => exact absurd rfl hr
  | _ => rfl

theorem status_notMem_resultsOf (i : Instr) : .status ∉ resultsOf i := by cases i <;> simp [resultsOf]

/-- Settles O23: the checks find the same, and once they pass the bodies end alike. -/
theorem outcomeDependsOnInputsOnly : Obligations.OutcomeDependsOnInputsOnly := by
  intro i s s' t t' h ht ht'
  rw [exec_eq] at ht ht'
  rw [← h.earlyOf_eq] at ht'
  have hbody := h.bodiesAgree
  generalize bodyOf i s = x at ht hbody
  generalize bodyOf i s' = x' at ht' hbody
  generalize earlyOf i s = early at ht ht'
  match early, x, x', hbody with
  | some c, _, _, _ => cases ht; cases ht'; simp
  | none, .error c, .error _, rfl => cases ht; cases ht'; simp
  | none, .ok u, .ok u', ⟨hres, hmem⟩ =>
    cases ht; cases ht'
    refine ⟨by simp, by simp, fun _ => ⟨fun r hr => ?_, hmem⟩⟩
    have hr' : r ≠ .status := fun he => status_notMem_resultsOf i (he ▸ hr)
    rw [State.complete_reg _ hr', State.complete_reg _ hr', hres r hr]

end Sys2Proof.Machine
end

section
/-! Proofs about the buffers in memory (spec/20_memory.md): a command of width 0 does not look at `PKD_ADDR` (R67),
and elements and packed words lie in memory least significant byte first (R68, R69). -/

namespace Sys2Proof.Machine

/-! ### A command of width 0 -/

theorem firstFault_errSize {s : State} {w : WField} {argOk : Bool} {blk : Option Nat} (hw : w.toNat ≤ 32)
    (harg : argOk = true) (hlen : s.pkdLen.toNat ≠ w.toNat) : firstFault s (some w) argOk blk = some .errSize := by
  have hsize := mt (sizeOk_some s w).1 hlen
  simp [firstFault, widthOk, hw, harg, hsize]

/-- The checks raise `ERR_SIZE` when they reach step 4 of 60_exceptions.md R221 and it fails. -/
theorem earlyOf_errSize {i : Instr} {s : State} (hw : WidthPasses i) (harg : ArgInRange i)
    (hsize : ¬ SizePasses i s) : earlyOf i s = some .errSize := by
  obtain ⟨b, hb, hlen⟩ : ∃ b, widthFieldOf i = some b ∧ s.pkdLen.toNat ≠ b := by
    simpa [SizePasses] using hsize
  cases i with
  | maxbits => cases hb
  | maxbitsD => cases hb
  | maxbitsDL n => cases hb
  | searchD w n => cases hb; exact firstFault_errSize (hw _ rfl) (by simpa [lengthOk, ArgInRange] using harg) hlen
  | selectD w n => cases hb; exact firstFault_errSize (hw _ rfl) (by simpa [indexOk, ArgInRange] using harg) hlen
  | _ => cases hb; exact firstFault_errSize (hw _ rfl) rfl hlen

/-- At width 0 no word is stored. -/
theorem State.storeValues_zero (s : State) (vs : List Nat) : s.storeValues 0 vs = s := rfl

/-- At width 0 a packer without mask stores no word and draws no free value, whether the values fit or not. -/
theorem State.storeUnmasked_zero (s : State) (vs : List Nat) : s.storeUnmasked 0 vs = s := by
  unfold State.storeUnmasked
  split <;> rfl

/-- At width 0 no packed word is read. -/
theorem State.unpacked_zero (s : State) : s.unpacked 0 = unpackWords Config.layout 0 [] := rfl

theorem State.reconstructed_zero (s : State) :
    s.reconstructed 0 = sums s.offset.toNat (unpackWords Config.layout 0 []) := rfl

theorem pkdAddr_notMem_registersReadBy {i : Instr} (h : widthFieldOf i = some 0) :
    .pkdAddr ∉ registersReadBy i := by
  cases i <;> grind [widthFieldOf, registersReadBy]

/-- A command of width 0 cannot tell apart two states that differ in `PKD_ADDR` only. -/
theorem sameInputs_pkdAddr {i : Instr} (h : widthFieldOf i = some 0) (s : State) (a : Word) :
    SameInputs i s { s with pkdAddr := a } := by
  refine ⟨rfl, rfl, fun r hr => ?_, fun _ _ => rfl⟩
  cases r with
  | pkdAddr => exact absurd hr (pkdAddr_notMem_registersReadBy h)
  | _ => rfl

/-- At width 0 the body of a command neither reads `PKD_ADDR` nor stores there: it ends as it would have, with
the register as it was found. -/
theorem bodyOf_pkdAddr {i : Instr} (h : widthFieldOf i = some 0) (s : State) (a : Word) :
    bodyOf i { s with pkdAddr := a } = (bodyOf i s).map (fun t => { t with pkdAddr := a }) := by
  have hel : ({ s with pkdAddr := a } : State).elements = s.elements := rfl
  cases i with
  | maxbits => cases h
  | maxbitsD => cases h
  | maxbitsDL n => cases h
  | pack w => simp only [bodyOf, Option.some.inj h, State.storeUnmasked_zero, Except.map]
  | packM w => simp only [bodyOf, Option.some.inj h, State.storeValues_zero, Except.map]
  | packD w =>
    simp only [bodyOf, Option.some.inj h, State.storeUnmasked_zero, hel]
    split <;> rfl
  | unpack w =>
    simp only [bodyOf, Option.some.inj h, State.unpacked_zero, State.storeElements, Except.map]
  | unpackD w =>
    simp only [bodyOf, Option.some.inj h, State.reconstructed_zero]
    split <;> rfl
  | searchD w n =>
    simp only [bodyOf, searchIndex, Option.some.inj h, State.reconstructed_zero]
    split
    · split <;> rfl
    · rfl
  | selectD w n =>
    simp only [bodyOf, Option.some.inj h, State.reconstructed_zero]
    split <;> rfl

/-- Settles O28: the checks and the body of a command of width 0 end alike whatever `PKD_ADDR` holds, and its
`PKD_LEN` is still compared. -/
theorem widthZeroIgnoresPackedAddress : Obligations.WidthZeroIgnoresPackedAddress := by
  intro i s a h
  have hearly : earlyOf i { s with pkdAddr := a } = earlyOf i s := (sameInputs_pkdAddr h s a).earlyOf_eq.symm
  have hbody := bodyOf_pkdAddr h s a
  have hlen : ∀ t, exec i s = .next t → s.pkdLen ≠ 0#32 → ArgInRange i → t = s.raise .errSize := by
    intro t ht hlen harg
    have hsize : ¬ SizePasses i s := by simpa [SizePasses, h, ← BitVec.toNat_inj] using hlen
    rw [exec_early (earlyOf_errSize (by simp [WidthPasses, h]) harg hsize)] at ht
    exact (Host.Outcome.next.inj ht).symm
  obtain ⟨c, he | ⟨he, hb⟩, hs⟩ | ⟨t, he, hb, hs⟩ := exec_cases i s
  · exact ⟨_, hs, exec_early (hearly.trans he), hlen _ hs⟩
  · exact ⟨_, hs, exec_error (hearly.trans he) (by rw [hbody, hb]; rfl), hlen _ hs⟩
  · exact ⟨_, hs, exec_ok (hearly.trans he) (by rw [hbody, hb]; rfl), hlen _ hs⟩

/-! ### Byte order -/

/-- Byte `j` of a number read from memory lies `j` addresses up: bits `8j` to `8j+7` (20_memory.md R68, R69). -/
theorem Memory.read_eq_digit_readLE (m : Memory) (a n j : Nat) (hj : j < n) :
    (m.read (a + j)).toNat = m.readLE a n / 2 ^ (8 * j) % 2 ^ 8 := by
  induction n generalizing a j with
  | zero => omega
  | succ n ih =>
    have hbyte : (m.read a).toNat < 256 := (m.read a).isLt
    rw [Memory.readLE]
    cases j with
    | zero => simp only [Nat.add_zero, Nat.mul_zero, pow_zero]; omega
    | succ j =>
      rw [show a + (j + 1) = a + 1 + j by omega, ih _ _ (by omega), show 8 * (j + 1) = 8 + 8 * j by omega,
        Nat.pow_add, ← Nat.div_div_eq_div_mul]
      congr 2
      omega

/-- The low 32 bits of a number hold its first four bytes. -/
theorem mod_two_pow_32_byte (x j : Nat) (hj : j < 4) :
    x % 2 ^ 32 / 2 ^ (8 * j) % 2 ^ 8 = x / 2 ^ (8 * j) % 2 ^ 8 := by
  interval_cases j <;> omega

/-- Settles O56: a byte read is a digit of the number read at its place, and what a store puts there is read
back (R68, R69). -/
theorem buffersAreLittleEndian : Obligations.BuffersAreLittleEndian := by
  refine ⟨fun s i => ⟨Memory.readLE_lt _ _ 4, fun j hj => Memory.read_eq_digit_readLE _ _ 4 j hj⟩,
    fun s w => ⟨Memory.readLE_lt _ _ 16, fun j hj => Memory.read_eq_digit_readLE _ _ 16 j hj⟩,
    fun m a i xs hi j hj => ?_, fun m a w ws hw j hj => ?_⟩
  · rw [Memory.read_eq_digit_readLE _ _ 4 j hj, Memory.readLE_storeBlock _ _ _ _ hi, mod_two_pow_32_byte _ _ hj,
      List.getD_eq_getElem _ _ hi]
  · rw [Memory.read_eq_digit_readLE _ _ 16 j hj, Memory.readLE_storePacked _ _ _ _ hw,
      List.getD_eq_getElem _ _ hw]

end Sys2Proof.Machine
end

section
/-! Proofs about the command word (spec/30_encoding.md): which words match no row of the opcode map, and what
writing one does (R96). -/

namespace Sys2Proof.Machine

/-! ### The fields of a command word -/

/-- The fields of R91 and the reserved bits of R92 make up the whole word. -/
theorem word_eq_iff_fields (v u : Word) :
    v = u ↔ field v 0 8 = field u 0 8 ∧ field v 14 2 = field u 14 2 ∧ field v 24 8 = field u 24 8 ∧
      field v 8 6 = field u 8 6 ∧ field v 16 8 = field u 16 8 := by
  simp only [← BitVec.toNat_inj, field]
  omega

theorem field_and (v m : Word) (lo len : Nat) : field (v &&& m) lo len = field v lo len &&& field m lo len := by
  simp only [field, BitVec.toNat_and, Nat.and_div_two_pow, Nat.and_mod_two_pow]

/-- A mask with every bit of a field set keeps the field. -/
theorem field_and_of_ones {v m : Word} {lo len : Nat} (h : field m lo len = 2 ^ len - 1) :
    field (v &&& m) lo len = field v lo len := by
  rw [field_and, h, Nat.and_two_pow_sub_one_eq_mod, field, Nat.mod_mod]

/-- A mask with no bit of a field set clears the field. -/
theorem field_and_of_zero {v m : Word} {lo len : Nat} (h : field m lo len = 0) : field (v &&& m) lo len = 0 := by
  rw [field_and, h, Nat.and_zero]

/-- A field that the mask keeps under a condition, and clears otherwise. -/
theorem field_and_eq_zero_iff {v m : Word} {lo len : Nat} {p : Prop} [Decidable p]
    (h : field m lo len = if p then 2 ^ len - 1 else 0) :
    field (v &&& m) lo len = 0 ↔ (p → field v lo len = 0) := by
  by_cases hp : p
  · rw [if_pos hp] at h
    simp [field_and_of_ones h, hp]
  · rw [if_neg hp] at h
    simp [field_and_of_zero h, hp]

/-! ### The rows of the opcode map -/

/-- The opcode of a row: its fixed value of `OP` (R95). -/
def opcodeOf (r : OpRow) : Nat := field r.value 0 8

/-- The opcodes whose format has no field `W`: formats Z and N. -/
def opsWithoutW : List Nat := [0x01, 0x02, 0x03]

/-- The opcodes whose format has no field `N`: formats Z and W. -/
def opsWithoutN : List Nat := [0x01, 0x02, 0x04, 0x05, 0x06, 0x07, 0x0A]

/-- Every row fixes `OP` and the reserved bits, fixes a field exactly when its format does not use it, and
fixes everything but `OP` at 0 (R91, R92, R95). -/
theorem row_fields {masked : Bool} {r : OpRow} (hr : r ∈ opRows masked) :
    (field r.mask 0 8 = 2 ^ 8 - 1 ∧ field r.mask 14 2 = 2 ^ 2 - 1 ∧ field r.mask 24 8 = 2 ^ 8 - 1 ∧
      field r.mask 8 6 = (if opcodeOf r ∈ opsWithoutW then 2 ^ 6 - 1 else 0) ∧
      field r.mask 16 8 = (if opcodeOf r ∈ opsWithoutN then 2 ^ 8 - 1 else 0)) ∧
    field r.value 14 2 = 0 ∧ field r.value 24 8 = 0 ∧ field r.value 8 6 = 0 ∧ field r.value 16 8 = 0 := by
  revert r masked
  decide

/-- A word matches a row when it has the row's opcode, no reserved bit is set and the fields that the opcode's
format does not use are 0 (R90, R92). -/
theorem selects_iff {masked : Bool} {r : OpRow} (hr : r ∈ opRows masked) (v : Word) :
    r.selects v = true ↔ field v 0 8 = opcodeOf r ∧ field v 14 2 = 0 ∧ field v 24 8 = 0 ∧
      (field v 0 8 ∈ opsWithoutW → field v 8 6 = 0) ∧ (field v 0 8 ∈ opsWithoutN → field v 16 8 = 0) := by
  obtain ⟨⟨hop, hlow, hhigh, hw, hn⟩, hlow0, hhigh0, hw0, hn0⟩ := row_fields hr
  rw [OpRow.selects, beq_iff_eq, word_eq_iff_fields, field_and_of_ones hop, field_and_of_ones hlow,
    field_and_of_ones hhigh, hlow0, hhigh0, hw0, hn0, field_and_eq_zero_iff hw, field_and_eq_zero_iff hn]
  exact and_congr_right fun h : field v 0 8 = opcodeOf r => by rw [h]

/-- The opcodes in use are those from 0x01 up to the last row's (R95). -/
theorem exists_row_with_opcode_iff (masked : Bool) (op : Nat) :
    (∃ r ∈ opRows masked, op = opcodeOf r) ↔ op ≠ 0 ∧ op < (if masked then 0x0B else 0x0A) := by
  have hops : (opRows masked).map opcodeOf = List.range' 1 (if masked then 10 else 9) := by
    revert masked; decide
  calc (∃ r ∈ opRows masked, op = opcodeOf r)
      ↔ op ∈ (opRows masked).map opcodeOf := by simp [eq_comm]
    _ ↔ op ≠ 0 ∧ op < (if masked then 0x0B else 0x0A) := by
        rw [hops, List.mem_range'_1]; cases masked <;> simp <;> omega

/-! ### The words that match no row -/

theorem decodeOn_eq_noRow_iff (masked : Bool) (v : Word) :
    decodeOn masked v = .error .noRow ↔ ¬ ∃ r ∈ opRows masked, r.selects v = true := by
  rw [decodeOn]
  cases h : (opRows masked).find? (fun r => r.selects v) with
  | none => simpa using h
  | some r => simpa using ⟨r, List.mem_of_find?_eq_some h, List.find?_some (p := fun r : OpRow => r.selects v) h⟩

/-- A word matches a row exactly when it is none of the illegal words of R96. -/
theorem exists_row_selects_iff (masked : Bool) (v : Word) :
    (∃ r ∈ opRows masked, r.selects v = true) ↔ ¬ IllegalWord masked v := by
  calc (∃ r ∈ opRows masked, r.selects v = true)
      ↔ (∃ r ∈ opRows masked, field v 0 8 = opcodeOf r) ∧ field v 14 2 = 0 ∧ field v 24 8 = 0 ∧
          (field v 0 8 ∈ opsWithoutW → field v 8 6 = 0) ∧ (field v 0 8 ∈ opsWithoutN → field v 16 8 = 0) := by
        rw [← exists_and_right]
        exact exists_congr fun r => by rw [and_assoc]; exact and_congr_right fun hr => selects_iff hr v
    _ ↔ ¬ IllegalWord masked v := by
        rw [exists_row_with_opcode_iff, IllegalWord, ← opsWithoutW, ← opsWithoutN]
        simp only [not_or, not_and, not_not, not_le, ne_eq, and_assoc]

/-- A word that is no command enters `ERR_OP` and does nothing else. -/
theorem executeWord_of_noRow {v : Word} (h : decode v = .error .noRow) (s : State) :
    executeWord v s = .next (s.raise .errOp) := by
  rw [executeWord, h]

/-- Settles O5: a row is matched by its opcode, the reserved bits and the unused fields, and the opcodes of the
rows run without a gap. -/
theorem illegalWordsRaiseErrOp : Obligations.IllegalWordsRaiseErrOp := by
  have hillegal : ∀ masked v, decodeOn masked v = .error .noRow ↔ IllegalWord masked v := fun masked v => by
    rw [decodeOn_eq_noRow_iff, exists_row_selects_iff, not_not]
  exact ⟨hillegal, fun v s hv => executeWord_of_noRow ((hillegal _ v).2 hv) s⟩

end Sys2Proof.Machine
end

section
/-! Proofs about the analyzer (spec/40_analyzer.md): the width in `RES0` when a command completes (R125), and
MAXBITS_DL of the full block (R124). -/

namespace Sys2Proof.Machine

/-! ### The least width of a family of values -/

theorem width_map_range_le_iff (v : Nat → Nat) (n b : Nat) :
    width ((List.range n).map v) ≤ b ↔ ∀ i, i < n → v i < 2 ^ b := by
  simp [width_le_iff]

/-- The width computed is the least that holds the values, if they are 32-bit values (R120). -/
theorem isWidth_width {v : Nat → Nat} {n : Nat} (h : ∀ i, i < n → v i < 2 ^ 32) :
    IsWidth v n (width ((List.range n).map v)) :=
  ⟨(width_map_range_le_iff v n 32).2 h, (width_map_range_le_iff v n _).1 le_rfl,
    fun c => (width_map_range_le_iff v n c).2⟩

/-- A width below the least does not hold every value. -/
theorem IsWidth.exists_unfit {v : Nat → Nat} {n b c : Nat} (h : IsWidth v n b) (hc : c < b) :
    ∃ i, i < n ∧ 2 ^ c ≤ v i := by
  obtain ⟨-, -, hleast⟩ := h
  by_contra! hfit
  exact absurd (hleast c hfit) (by omega)

/-- The least width grows with the number of values looked at. -/
theorem IsWidth.mono {v : Nat → Nat} {n m b c : Nat} (hb : IsWidth v n b) (hc : IsWidth v m c) (hnm : n ≤ m) :
    b ≤ c := by
  obtain ⟨-, -, hleast⟩ := hb
  obtain ⟨-, hfits, -⟩ := hc
  exact hleast c fun i hi => hfits i (by omega)

/-! ### Elements and deltas of the block buffer -/

theorem State.elements_eq_map_elem (s : State) (n : Nat) : s.elements n = (List.range n).map s.elem := rfl

theorem State.elem_lt (s : State) (i : Nat) : s.elem i < 2 ^ 32 := Memory.readLE_lt _ _ 4

theorem State.deltaAt_lt (s : State) (i : Nat) : s.deltaAt i < 2 ^ 32 := by
  have hi := s.elem_lt i
  rw [State.deltaAt]
  split
  · next h0 => subst h0; omega
  · omega

/-- The list of deltas is the deltas in order. -/
theorem State.deltas_elements (s : State) (n : Nat) :
    deltas s.offset.toNat (s.elements n) = (List.range n).map s.deltaAt := by
  refine List.ext_getElem (by simp) fun i hi _ => ?_
  have hin : i < (s.elements n).length := by simpa using hi
  rw [← List.getD_eq_getElem _ 0 hi, getD_deltas _ _ _ hin, State.elements_eq_map_elem]
  rw [State.elements_length] at hin
  cases i with
  | zero => simp [State.deltaAt, hin]
  | succ i => simp [State.deltaAt, hin, Nat.lt_of_succ_lt hin]

theorem State.deltaValues_elements (s : State) (n : Nat) :
    deltaValues (deltas s.offset.toNat (s.elements n)) = (List.range n).map fun j => (s.deltaAt j).toNat := by
  rw [State.deltas_elements, deltaValues, List.map_map]; rfl

/-! ### The width in RES0 -/

/-- When a command ends in DONE its body found no fault, and completion left the body's `RES0` (R213). -/
theorem bodyOf_of_done {i : Instr} {s t : State} (h : exec i s = .next t) (hdone : statusState t.status = 1) :
    ∃ u, bodyOf i s = .ok u ∧ t.res0 = u.res0 := by
  obtain ⟨c, -, hx⟩ | ⟨u, -, hbody, hx⟩ := exec_cases i s
  · cases h.symm.trans hx
    simp at hdone
  · cases h.symm.trans hx
    exact ⟨u, hbody, rfl⟩

/-- A least width survives being stored in a 32-bit register. -/
theorem IsWidth.toNat_ofNat {v : Nat → Nat} {n b : Nat} (h : IsWidth v n b) :
    IsWidth v n (BitVec.ofNat 32 b).toNat := by
  have ⟨hle, _, _⟩ := h
  rwa [BitVec.toNat_ofNat, Nat.mod_eq_of_lt (by omega)]

/-- What is in `RES0` when MAXBITS completes (R121). -/
theorem isWidth_of_maxbits_done {s t : State} (h : exec .maxbits s = .next t)
    (hdone : statusState t.status = 1) : IsWidth s.elem 128 t.res0.toNat := by
  obtain ⟨u, hbody, hres⟩ := bodyOf_of_done h hdone
  cases hbody
  rw [hres]
  exact (isWidth_width fun i _ => s.elem_lt i).toNat_ofNat

/-- When the width of the deltas is found, none is negative and `RES0` is their least width (R122, R123). -/
theorem isWidth_of_deltaWidth {s u : State} {n : Nat} (h : deltaWidth s n = .ok u) :
    (∀ j, j < n → 0 ≤ s.deltaAt j) ∧ IsWidth (fun j => (s.deltaAt j).toNat) n u.res0.toNat := by
  rw [deltaWidth, State.deltaValues_elements] at h
  split at h
  · next hsign =>
    cases h
    have hlt : ∀ j, j < n → (s.deltaAt j).toNat < 2 ^ 32 := fun j _ => by have := s.deltaAt_lt j; omega
    rw [noneNegative_iff, State.deltas_elements] at hsign
    exact ⟨by simpa using hsign, (isWidth_width hlt).toNat_ofNat⟩
  · cases h

/-- What is in `RES0` when MAXBITS_D or MAXBITS_DL completes, the commands that look for the width of deltas
(R122, R123). -/
theorem isWidth_of_deltaWidth_done {i : Instr} {s t : State} {n : Nat} (hi : bodyOf i s = deltaWidth s n)
    (h : exec i s = .next t) (hdone : statusState t.status = 1) :
    (∀ j, j < n → 0 ≤ s.deltaAt j) ∧ IsWidth (fun j => (s.deltaAt j).toNat) n t.res0.toNat := by
  obtain ⟨u, hbody, hres⟩ := bodyOf_of_done h hdone
  rw [hres]
  exact isWidth_of_deltaWidth (hi.symm.trans hbody)

/-! ### The statements -/

/-- Settles O35: each command leaves a least width in `RES0`, and the least width is monotone in the number of
deltas. -/
theorem analyzerWidthFits : Obligations.AnalyzerWidthFits := by
  refine ⟨fun s t h hdone => ?maxbits, fun s t h hdone => ?maxbitsD, fun n m s t u hnm ht hu hdt hdu => ?mono⟩
  case maxbits =>
    have hwidth := isWidth_of_maxbits_done h hdone
    have ⟨hle, hfits, _⟩ := hwidth
    exact ⟨hle, hfits, fun c => hwidth.exists_unfit⟩
  case maxbitsD =>
    obtain ⟨hsign, hwidth⟩ := isWidth_of_deltaWidth_done rfl h hdone
    have ⟨hle, hfits, _⟩ := hwidth
    refine ⟨hle, fun j hj => ⟨hsign j hj, ?_⟩, fun c hc => ?_⟩
    · exact_mod_cast (Int.toNat_lt (hsign j hj)).1 (hfits j hj)
    · obtain ⟨j, hj, hunfit⟩ := hwidth.exists_unfit hc
      exact ⟨j, hj, by exact_mod_cast (Int.le_toNat (hsign j hj)).1 hunfit⟩
  case mono =>
    obtain ⟨-, hn⟩ := isWidth_of_deltaWidth_done rfl ht hdt
    obtain ⟨-, hm⟩ := isWidth_of_deltaWidth_done rfl hu hdu
    exact hn.mono hm hnm

/-- Settles O34: with `N` = 128 the length is legal, the block buffer has 512 bytes and 128 deltas are looked
at, as in MAXBITS_D. -/
theorem maxbitsDLOfFullBlock : Obligations.MaxbitsDLOfFullBlock := by
  intro s
  have hchecks : earlyOf (.maxbitsDL 128) s = earlyOf .maxbitsD s := rfl
  have hbody : bodyOf (.maxbitsDL 128) s = bodyOf .maxbitsD s := rfl
  rw [exec_eq, exec_eq, hchecks, hbody]

end Sys2Proof.Machine
end

section
/-! Proofs about the packers and unpackers (spec/41_pack_unpack.md): PACK and PACK_D of a value that does not fit
(R143), the commands of width 0 (R142, R172), and UNPACK after PACK or PACK_M (R146). -/

namespace Sys2Proof.Machine

/-! ### Commands whose checks pass -/

/-- A command with its `N` in range and its buffers usable passes every check (60_exceptions.md R221). -/
theorem earlyOf_of_usable {i : Instr} {s : State} (harg : ArgInRange i)
    (hblk : ∀ n, blockBytesOf i = some n → s.BlockUsable n)
    (hpkd : ∀ b, widthFieldOf i = some b → s.PackedUsable b) : earlyOf i s = none := by
  obtain ⟨hblkAligned, hblkExists⟩ := forall₂_and.1 hblk
  obtain ⟨hwidth, hpkd⟩ := forall₂_and.1 hpkd
  obtain ⟨hsize, hpkd⟩ := forall₂_and.1 hpkd
  obtain ⟨hpkdAligned, hpkdExists⟩ := forall₂_and.1 hpkd
  exact (earlyOf_none i s).2 ⟨hwidth, harg, hsize, ⟨hblkAligned, hpkdAligned⟩, hblkExists, hpkdExists⟩

/-- The commands of this section: a width, no `N`, and a block buffer of 128 elements. -/
theorem earlyOf_of_packedUsable {i : Instr} {s : State} {b : Nat} (hblk : s.BlockUsable 512)
    (hpkd : s.PackedUsable b) (harg : ArgInRange i) (hw : widthFieldOf i = some b)
    (hbytes : blockBytesOf i = some 512) : earlyOf i s = none :=
  earlyOf_of_usable harg (fun _ hn => Option.some.inj (hbytes.symm.trans hn) ▸ hblk)
    (fun _ hc => Option.some.inj (hw.symm.trans hc) ▸ hpkd)

/-- A packed buffer of width 0 asks only that `PKD_LEN` is 0 (20_memory.md R67). -/
theorem State.packedUsable_zero {s : State} (h : s.pkdLen = 0#32) : s.PackedUsable 0 :=
  ⟨Nat.zero_le 32, by simp [h], fun h0 => absurd h0 (lt_irrefl 0), fun h0 => absurd h0 (lt_irrefl 0)⟩

/-- A command of width 0 with a `PKD_LEN` other than 0 (60_exceptions.md R218). -/
theorem exec_errSize_of_width_zero {i : Instr} {s : State} (hw : widthFieldOf i = some 0) (harg : ArgInRange i)
    (hlen : s.pkdLen ≠ 0#32) : exec i s = .next (s.raise .errSize) := by
  have hsize : ¬ SizePasses i s := by simpa [SizePasses, hw, ← BitVec.toNat_inj] using hlen
  exact exec_early (earlyOf_errSize (by simp [WidthPasses, hw]) harg hsize)

/-! ### What the bodies do -/

theorem State.noneNegative_elements_iff (s : State) (n : Nat) :
    noneNegative (deltas s.offset.toNat (s.elements n)) = true ↔ ∀ i, i < n → 0 ≤ s.deltaAt i := by
  simp [noneNegative_iff, State.deltas_elements]

/-- PACK_D of deltas none of which is negative (42_delta.md R171). -/
theorem bodyOf_packD_of_nonneg {w : WField} {s : State} (h : ∀ i, i < 128 → 0 ≤ s.deltaAt i) :
    bodyOf (.packD w) s = .ok (s.storeUnmasked w.toNat (deltaValues (deltas s.offset.toNat (s.elements 128)))) :=
  if_pos ((s.noneNegative_elements_iff 128).2 h)

/-- PACK_D of a negative delta (42_delta.md R171; 60_exceptions.md R222). -/
theorem bodyOf_packD_of_neg {w : WField} {s : State} (h : ∃ i, i < 128 ∧ s.deltaAt i < 0) :
    bodyOf (.packD w) s = .error .errOrder := by
  obtain ⟨i, hi, hneg⟩ := h
  refine if_neg fun hnone => ?_
  have hi0 := (s.noneNegative_elements_iff 128).1 hnone i hi
  omega

/-- Values that fit are stored as packed (41_pack_unpack.md R141). -/
theorem State.storeUnmasked_of_fit {s : State} {b n : Nat} {v : Nat → Nat} (h : ∀ i, i < n → v i < 2 ^ b) :
    s.storeUnmasked b ((List.range n).map v) = s.storeValues b ((List.range n).map v) :=
  if_pos ((allFit_iff _ _).2 (by simpa using h))

/-- A packer without mask completes whatever its values, and touches only the packed buffer (R143). -/
theorem exec_storeUnmasked {i : Instr} {s : State} {b : Nat} {vs : List Nat} (hearly : earlyOf i s = none)
    (hbody : bodyOf i s = .ok (s.storeUnmasked b vs)) :
    ∃ t, exec i s = .next t ∧ t = { s with mem := t.mem, draws := t.draws, status := statusDone s.status } ∧
      ∀ a, ¬ InBuffer (s.pkdAddr.toNat, 16 * b) a → t.mem.read a = s.mem.read a := by
  obtain ⟨ws, d, hlen, hstore⟩ := s.storeUnmasked_cases b vs
  rw [hstore] at hbody
  refine ⟨_, exec_ok hearly hbody, rfl, fun a ha => Memory.read_storePacked_outside _ _ _ _ ?_⟩
  simp only [InBuffer] at ha
  omega

/-- The 128 elements stored, if they are 32-bit values (20_memory.md R68). -/
theorem storesBlock_storeElements (s : State) {v : Nat → Nat} (hv : ∀ i, i < 128 → v i < 2 ^ 32) :
    StoresBlock s (s.storeElements ((List.range 128).map v)).complete v := by
  refine ⟨fun i hi => ?_, fun a ha => Memory.read_storeBlock_outside _ _ _ _ (by simpa using ha)⟩
  calc (s.storeElements ((List.range 128).map v)).complete.elem i
      = ((List.range 128).map v)[i]'(by simpa using hi) % 2 ^ 32 := Memory.readLE_storeBlock _ _ _ _ _
    _ = v i := by rw [List.getElem_map, List.getElem_range, Nat.mod_eq_of_lt (hv i hi)]

/-! ### A width of 0 -/

theorem IsWidth.eq_zero_iff {v : Nat → Nat} {n b : Nat} (h : IsWidth v n b) :
    b = 0 ↔ ∀ i, i < n → v i = 0 := by
  obtain ⟨-, hfits, hleast⟩ := h
  constructor
  · rintro rfl i hi
    simpa using hfits i hi
  · intro hzero
    exact Nat.le_zero.1 (hleast 0 fun i hi => by simp [hzero i hi])

/-- The deltas are all 0 exactly when the block is constant at `OFFSET`. -/
theorem State.forall_deltaAt_eq_zero_iff (s : State) (n : Nat) :
    (∀ i, i < n → s.deltaAt i = 0) ↔ ∀ i, i < n → s.elem i = s.offset.toNat := by
  constructor
  · intro h i hi
    induction i with
    | zero =>
      have h0 := h 0 hi
      simp only [State.deltaAt, if_pos] at h0
      omega
    | succ i ih =>
      have hprev := ih (by omega)
      have hsucc := h (i + 1) hi
      simp only [State.deltaAt, Nat.add_sub_cancel, if_neg (Nat.succ_ne_zero i)] at hsucc
      omega
  · intro h i hi
    rw [State.deltaAt]
    split
    · next h0 => subst h0; rw [h 0 hi, sub_self]
    · rw [h i hi, h (i - 1) (by omega), sub_self]

theorem sums_replicate_zero (o n : Nat) : sums o (List.replicate n 0) = List.replicate n o := by
  induction n with
  | zero => rfl
  | succ n ih => simp [List.replicate_succ, sums, ih]

/-- At width 0 every delta unpacked is 0, so that every reconstructed value is `OFFSET` (42_delta.md R172). -/
theorem State.reconstructed_zero_eq_map (s : State) :
    s.reconstructed 0 = (List.range 128).map fun _ => s.offset.toNat := by
  have hunpacked : unpackWords Config.layout 0 [] = List.replicate 128 0 := by decide
  rw [State.reconstructed_zero, hunpacked, sums_replicate_zero, List.map_const', List.length_range]

/-- When no delta is negative MAXBITS_D leaves 0 exactly for the block constant at `OFFSET` (40_analyzer.md R122;
41_pack_unpack.md R142). -/
theorem exec_maxbitsD_res0_eq_zero_iff {s : State} (hblk : s.BlockUsable 512)
    (hsign : ∀ i, i < 128 → 0 ≤ s.deltaAt i) :
    ∃ t, exec .maxbitsD s = .next t ∧ (t.res0 = 0#32 ↔ ∀ i, i < 128 → s.elem i = s.offset.toNat) := by
  have hearly : earlyOf .maxbitsD s = none :=
    earlyOf_of_usable trivial (fun _ h => Option.some.inj h ▸ hblk) (fun _ h => nomatch h)
  have hexec := exec_ok hearly (if_pos ((s.noneNegative_elements_iff 128).2 hsign))
  refine ⟨_, hexec, ?_⟩
  obtain ⟨-, hwidth⟩ := isWidth_of_deltaWidth_done rfl hexec (statusState_done _)
  rw [← BitVec.toNat_inj, BitVec.toNat_zero, hwidth.eq_zero_iff, ← State.forall_deltaAt_eq_zero_iff]
  refine forall₂_congr fun i hi => ?_
  have := hsign i hi
  omega

/-! ### UNPACK of what was packed -/

/-- A packed buffer read where it was stored (20_memory.md R69). -/
theorem Memory.loadPacked_storePacked (m : Memory) (a : Nat) (ws : List PackedWord) :
    (m.storePacked a ws).loadPacked a ws.length = ws := by
  refine List.ext_getElem (by simp [Memory.loadPacked]) fun i _ hi => ?_
  simp only [Memory.loadPacked, List.getElem_map, List.getElem_range]
  rw [Memory.readLE_storePacked _ _ _ _ hi, BitVec.ofNat_toNat, BitVec.setWidth_eq]

/-- Unpacking gives back 128 values that fit: the packed words are the digits of the values joined, so that joined
again they are the same number, whose digits are the values (20_memory.md R72, R73). -/
theorem unpackWords_packWords_horizontal {b : Nat} {vs : List Nat} (hlen : vs.length = 128)
    (hfit : ∀ v ∈ vs, v < 2 ^ b) : unpackWords .horizontal b (packWords .horizontal b vs) = vs := by
  have hwords : (packWords .horizontal b vs).map BitVec.toNat =
      (List.range b).map (digit 128 (joinBits b vs)) := by
    rw [packWords, List.map_map]
    exact List.map_congr_left fun w _ => Nat.mod_eq_of_lt (digit_lt 128 _ w)
  have hlt : joinBits b vs < 2 ^ (128 * b) := by
    rw [Nat.mul_comm, ← hlen]
    exact joinBits_lt b vs hfit
  rw [unpackWords, hwords, joinBits_digits 128 b _ hlt]
  refine List.ext_getElem (by simp [hlen]) fun i _ hi => ?_
  rw [List.getElem_map, List.getElem_range, digit_joinBits b vs hfit i hi, List.getD_eq_getElem _ _ hi]

/-- Values that fit are unpacked from the buffer they were stored in. -/
theorem State.unpacked_of_storeValues {s t : State} {b : Nat} {vs : List Nat} (hlen : vs.length = 128)
    (hfit : ∀ v ∈ vs, v < 2 ^ b) (hmem : t.mem = (s.storeValues b vs).mem) (hpkd : t.pkdAddr = s.pkdAddr) :
    t.unpacked b = vs := by
  have hload := Memory.loadPacked_storePacked s.mem s.pkdAddr.toNat (packWords Config.layout b vs)
  rw [packWords_length] at hload
  rw [State.unpacked, hmem, hpkd, State.storeValues_mem, hload]
  exact unpackWords_packWords_horizontal hlen hfit

/-- UNPACK of a packed buffer that holds 128 values of its width (41_pack_unpack.md R145). -/
theorem exec_unpack_storesBlock {w : WField} {t : State} {v : Nat → Nat} (hblk : t.BlockUsable 512)
    (hpkd : t.PackedUsable w.toNat) (hfit : ∀ j, j < 128 → v j < 2 ^ w.toNat)
    (hunpacked : t.unpacked w.toNat = (List.range 128).map v) :
    ∃ u, exec (.unpack w) t = .next u ∧ statusState u.status = 1 ∧ StoresBlock t u v := by
  refine ⟨_, exec_ok (earlyOf_of_packedUsable hblk hpkd trivial rfl rfl) rfl, statusState_done _, ?_⟩
  obtain ⟨hle, -⟩ := hpkd
  rw [hunpacked]
  exact storesBlock_storeElements t fun j hj => (hfit j hj).trans_le (Nat.pow_le_pow_right (by decide) hle)

/-- A command that stores 128 values that fit, and UNPACK after it into any usable block buffer, both complete, and
UNPACK stores the values. -/
theorem exec_unpack_after_storeValues {i : Instr} {w : WField} {s : State} {v : Nat → Nat}
    (hpkd : s.PackedUsable w.toNat) (hfit : ∀ j, j < 128 → v j < 2 ^ w.toNat) (hearly : earlyOf i s = none)
    (hbody : bodyOf i s = .ok (s.storeValues w.toNat ((List.range 128).map v))) :
    ∃ t, exec i s = .next t ∧ statusState t.status = 1 ∧
      ∀ a : Word, State.BlockUsable { t with blkAddr := a } 512 →
        ∃ u, exec (.unpack w) { t with blkAddr := a } = .next u ∧ statusState u.status = 1 ∧
          StoresBlock { t with blkAddr := a } u v := by
  refine ⟨_, exec_ok hearly hbody, statusState_done _, fun a hblk => exec_unpack_storesBlock hblk hpkd hfit ?_⟩
  exact State.unpacked_of_storeValues (s := s) (by simp) (by simpa using hfit) rfl rfl

/-! ### The statements -/

/-- Settles O39: with the checks passed both commands end in `State.storeUnmasked`, which stores `W` words whether
or not the values fit. -/
theorem unfitPackCompletes : Obligations.UnfitPackCompletes := by
  intro w s hblk hpkd
  exact ⟨fun _ => exec_storeUnmasked (earlyOf_of_packedUsable hblk hpkd trivial rfl rfl) rfl,
    fun hsign _ => exec_storeUnmasked (earlyOf_of_packedUsable hblk hpkd trivial rfl rfl)
      (bodyOf_packD_of_nonneg hsign)⟩

/-- Settles O42: the least width is 0 when all deltas are; a packer of width 0 stores no word, and UNPACK_D sums
128 zeros from `OFFSET`. -/
theorem widthZeroCommands : Obligations.WidthZeroCommands := by
  refine ⟨fun s hblk hsign => exec_maxbitsD_res0_eq_zero_iff hblk hsign, fun s hlen i hi => ?size,
    fun s hblk hlen => ?usable⟩
  case size =>
    simp only [List.mem_cons, List.not_mem_nil, or_false] at hi
    obtain rfl | rfl | rfl | rfl := hi <;> exact exec_errSize_of_width_zero rfl trivial hlen
  case usable =>
    have hearly : ∀ {i}, ArgInRange i → widthFieldOf i = some 0 → blockBytesOf i = some 512 →
        earlyOf i s = none := earlyOf_of_packedUsable hblk (State.packedUsable_zero hlen)
    have hsums : s.reconstructed 0 = (List.range 128).map fun _ => s.offset.toNat := s.reconstructed_zero_eq_map
    refine ⟨?pack, ?packM, fun hsign => ?packD, fun hneg => ?order, ?unpackD⟩
    case pack =>
      exact exec_ok (hearly trivial rfl rfl) (congrArg Except.ok (s.storeUnmasked_zero _))
    case packM =>
      exact exec_ok (hearly trivial rfl rfl) (congrArg Except.ok (s.storeValues_zero _))
    case packD =>
      exact exec_ok (hearly trivial rfl rfl)
        ((bodyOf_packD_of_nonneg hsign).trans (congrArg Except.ok (s.storeUnmasked_zero _)))
    case order =>
      exact exec_error (hearly trivial rfl rfl) (bodyOf_packD_of_neg hneg)
    case unpackD =>
      have hlast : (s.reconstructed 0).getD 127 0 < 2 ^ 32 := by
        rw [hsums]; simpa using s.offset.isLt
      refine ⟨_, exec_ok (hearly trivial rfl rfl) (if_pos hlast), rfl, ?_⟩
      exact hsums ▸ storesBlock_storeElements s fun _ _ => s.offset.isLt

/-- Settles O51: PACK of elements that fit, and PACK_M of any elements, store 128 values that fit, which UNPACK
reads back. -/
theorem rawRoundTrip : Obligations.RawRoundTrip := by
  intro w s hblk hpkd
  refine ⟨fun hfit => ?pack, ?packM⟩
  case pack =>
    exact exec_unpack_after_storeValues hpkd hfit (earlyOf_of_packedUsable hblk hpkd trivial rfl rfl)
      (congrArg Except.ok (State.storeUnmasked_of_fit hfit))
  case packM =>
    refine exec_unpack_after_storeValues hpkd (fun _ _ => Nat.mod_lt _ (Nat.two_pow_pos _))
      (earlyOf_of_packedUsable hblk hpkd trivial rfl rfl) ?_
    rw [bodyOf, State.elements_eq_map_elem, List.map_map]; rfl

end Sys2Proof.Machine
end

section
/-! Proofs about the delta packer and unpacker (spec/42_delta.md): UNPACK_D after PACK_D stores the block back
(R175). -/

namespace Sys2Proof.Machine

/-! ### Deltas summed again -/

/-- Deltas none of which is negative, summed from the offset they were taken from, give the values back
(00_scope.md R14): each sum is the value at its place, from which the next delta was taken. -/
theorem sums_deltaValues_deltas {o : Nat} {xs : List Nat} (h : ∀ d ∈ deltas o xs, 0 ≤ d) :
    sums o (deltaValues (deltas o xs)) = xs := by
  induction xs generalizing o with
  | nil => rfl
  | cons x xs ih =>
    rw [deltas, List.forall_mem_cons] at h
    obtain ⟨hx, hxs⟩ := h
    have hsum : o + ((x : Int) - o).toNat = x := by omega
    rw [deltas, deltaValues, List.map_cons, sums, hsum]
    exact congrArg (x :: ·) (ih hxs)

/-! ### PACK_D of deltas that fit -/

/-- No delta of the block is negative and every delta fits `b` bits (42_delta.md R171). -/
def State.DeltasFit (s : State) (b : Nat) : Prop := ∀ i, i < 128 → 0 ≤ s.deltaAt i ∧ s.deltaAt i < 2 ^ b

/-- What PACK_D stores: the deltas of the block as values. -/
def State.blockDeltas (s : State) : List Nat := deltaValues (deltas s.offset.toNat (s.elements 128))

theorem State.blockDeltas_length (s : State) : s.blockDeltas.length = 128 := by
  simp [State.blockDeltas, deltaValues]

section
variable {s t : State} {b : Nat}

theorem State.DeltasFit.nonneg (h : s.DeltasFit b) : ∀ i, i < 128 → 0 ≤ s.deltaAt i :=
  fun i hi => (h i hi).1

theorem State.DeltasFit.blockDeltas_lt (h : s.DeltasFit b) : ∀ v ∈ s.blockDeltas, v < 2 ^ b := by
  rw [State.blockDeltas, State.deltaValues_elements]
  simp only [List.mem_map, List.mem_range, forall_exists_index, and_imp, forall_apply_eq_imp_iff₂]
  intro i hi
  obtain ⟨hnonneg, hlt⟩ := h i hi
  exact (Int.toNat_lt hnonneg).2 (by exact_mod_cast hlt)

/-- The deltas of the block summed from `OFFSET` are its elements. -/
theorem State.DeltasFit.sums_blockDeltas (h : s.DeltasFit b) :
    sums s.offset.toNat s.blockDeltas = s.elements 128 :=
  sums_deltaValues_deltas ((noneNegative_iff _).1 ((s.noneNegative_elements_iff 128).2 h.nonneg))

/-- PACK_D completes and stores the deltas packed (R171). -/
theorem exec_packD_of_deltasFit {w : WField} (hblk : s.BlockUsable 512) (hpkd : s.PackedUsable w.toNat)
    (h : s.DeltasFit w.toNat) :
    exec (.packD w) s = .next (s.storeValues w.toNat s.blockDeltas).complete := by
  have hstore : s.storeUnmasked w.toNat s.blockDeltas = s.storeValues w.toNat s.blockDeltas :=
    if_pos ((allFit_iff _ _).2 h.blockDeltas_lt)
  exact exec_ok (earlyOf_of_packedUsable hblk hpkd trivial rfl rfl)
    ((bodyOf_packD_of_nonneg h.nonneg).trans (congrArg Except.ok hstore))

/-- With the packed buffer, its address and `OFFSET` as PACK_D left them, the reconstructed values are the block's
elements (R175). -/
theorem State.DeltasFit.reconstructed_eq (h : s.DeltasFit b)
    (hmem : t.mem = (s.storeValues b s.blockDeltas).mem) (hpkd : t.pkdAddr = s.pkdAddr)
    (hoff : t.offset = s.offset) : t.reconstructed b = s.elements 128 := by
  rw [State.reconstructed, hoff,
    State.unpacked_of_storeValues s.blockDeltas_length h.blockDeltas_lt hmem hpkd, h.sums_blockDeltas]

end

/-! ### UNPACK_D of values in range -/

/-- UNPACK_D of a packed buffer whose reconstructed values are 32-bit values (R173). -/
theorem exec_unpackD_storesBlock {w : WField} {t : State} {v : Nat → Nat} (hblk : t.BlockUsable 512)
    (hpkd : t.PackedUsable w.toNat) (hv : ∀ i, i < 128 → v i < 2 ^ 32)
    (hsums : t.reconstructed w.toNat = (List.range 128).map v) :
    ∃ u, exec (.unpackD w) t = .next u ∧ statusState u.status = 1 ∧ StoresBlock t u v := by
  have hlast : (t.reconstructed w.toNat).getD 127 0 < 2 ^ 32 := by
    rw [hsums]; simpa using hv 127 (by decide)
  refine ⟨_, exec_ok (earlyOf_of_packedUsable hblk hpkd trivial rfl rfl) (if_pos hlast), statusState_done _, ?_⟩
  rw [hsums]
  exact storesBlock_storeElements t hv

/-! ### The statement -/

/-- Settles O52: PACK_D stores the deltas packed, from which the values reconstructed are the elements of the block,
which UNPACK_D stores. -/
theorem deltaRoundTrip : Obligations.DeltaRoundTrip := by
  intro w s hblk hpkd (hfit : s.DeltasFit w.toNat)
  refine ⟨_, exec_packD_of_deltasFit hblk hpkd hfit, statusState_done _, fun a hblk' => ?_⟩
  exact exec_unpackD_storesBlock hblk' hpkd (fun i _ => s.elem_lt i) (hfit.reconstructed_eq rfl rfl rfl)

end Sys2Proof.Machine
end

section
/-! Proofs about search and select (spec/43_search_select.md): SEARCH_D that finds nothing (R192), and SELECT_D and
SEARCH_D after PACK_D (R195, R196). -/

namespace Sys2Proof.Machine

/-! ### The values in a packed buffer -/

/-- A number's low `b` bits, each at its weight, make the number modulo `2^b`. -/
theorem sum_testBit_weights (x b : Nat) :
    ((List.range b).map fun k => if x.testBit k then 2 ^ k else 0).sum = x % 2 ^ b := by
  induction b with
  | zero => simp [Nat.mod_one]
  | succ b ih =>
    rw [List.range_succ, List.map_append, List.sum_append, ih, Nat.mod_pow_succ]
    obtain h | h := Nat.mod_two_eq_zero_or_one (x / 2 ^ b) <;> simp [Nat.testBit_eq_decide_div_mod_eq, h]

theorem State.packedWordAt_lt (s : State) (w : Nat) : s.packedWordAt w < 2 ^ 128 := Memory.readLE_lt _ _ 16

/-- The packed buffer of `b` words as one number, word 0 at its least significant end (20_memory.md R71). -/
def State.packedStream (s : State) (b : Nat) : Nat := joinBits 128 ((List.range b).map s.packedWordAt)

/-- Bit `k` of element `i` is bit `i*b + k` of the stream (R71). -/
theorem State.packedBit_eq_testBit_packedStream (s : State) {b i k : Nat} (hi : i < 128) (hk : k < b) :
    s.packedBit b i k = (s.packedStream b).testBit (i * b + k) := by
  have hpos : i * b + k < 128 * b := by
    calc i * b + k < (i + 1) * b := by rw [Nat.succ_mul]; omega
      _ ≤ 128 * b := Nat.mul_le_mul_right b hi
  have hword : (i * b + k) / 128 < b := Nat.div_lt_of_lt_mul hpos
  have hlt : ∀ v ∈ (List.range b).map s.packedWordAt, v < 2 ^ 128 := by
    simpa using fun w _ => s.packedWordAt_lt w
  rw [State.packedStream, ← Nat.div_add_mod' (i * b + k) 128,
    testBit_joinBits 128 _ hlt _ _ (by simpa using hword) (Nat.mod_lt _ (by decide))]
  simp [State.packedBit, bitPos, Config.layout, hword]

/-- Element `i` of the packed buffer is digit `i` of the stream (R73). -/
theorem State.packedElem_eq_digit (s : State) (b : Nat) {i : Nat} (hi : i < 128) :
    s.packedElem b i = digit b (s.packedStream b) i := by
  have hbits : ∀ k ∈ List.range b, (if s.packedBit b i k then 2 ^ k else 0) =
      if (s.packedStream b / 2 ^ (i * b)).testBit k then 2 ^ k else 0 := fun k hk => by
    rw [s.packedBit_eq_testBit_packedStream hi (List.mem_range.1 hk), Nat.testBit_div_two_pow, Nat.add_comm]
  rw [State.packedElem, List.map_congr_left hbits, sum_testBit_weights, digit]

/-- What the model unpacks is the elements in order (R73). -/
theorem State.unpacked_eq_map_packedElem (s : State) (b : Nat) :
    s.unpacked b = (List.range 128).map (s.packedElem b) := by
  have hwords : (s.mem.loadPacked s.pkdAddr.toNat b).map BitVec.toNat = (List.range b).map s.packedWordAt := by
    rw [Memory.loadPacked, List.map_map]
    exact List.map_congr_left fun w _ => Nat.mod_eq_of_lt (Memory.readLE_lt _ _ 16)
  rw [State.unpacked, Config.layout, unpackWords, hwords]
  exact List.map_congr_left fun i hi => (s.packedElem_eq_digit b (List.mem_range.1 hi)).symm

/-- What the model reconstructs is the running sums in order (43_search_select.md R190). -/
theorem State.reconstructed_eq_map_sumAt (s : State) (b : Nat) :
    s.reconstructed b = (List.range 128).map (s.sumAt b) := by
  refine List.ext_getElem (by simp) fun i hi hi' => ?_
  have hi128 : i < 128 := by simpa using hi
  rw [← List.getD_eq_getElem _ 0 hi, State.reconstructed, getD_sums _ _ _ (by simpa using hi128),
    State.unpacked_eq_map_packedElem, ← List.map_take, List.take_range, Nat.min_eq_left hi128]
  simp [State.sumAt]

/-! ### SELECT_D and SEARCH_D -/

/-- A list read below its length `n`. -/
theorem getD_map_range {v : Nat → Nat} {n j : Nat} (hj : j < n) : ((List.range n).map v).getD j 0 = v j := by
  simp [hj]

/-- What a search of the first `n` of the 128 values finds: an index at most `n`, every value before it less than the
key, and where the index is below `n` the value at it not less (R191). -/
theorem searchIndex_spec {t : State} {b n : Nat} {v : Nat → Nat} (hn : n ≤ 128)
    (hvalues : t.reconstructed b = (List.range 128).map v) :
    searchIndex t b n ≤ n ∧ (∀ j, j < searchIndex t b n → v j < t.key.toNat) ∧
      (searchIndex t b n < n → t.key.toNat ≤ v (searchIndex t b n)) := by
  have hindex : searchIndex t b n = lowerBound t.key.toNat ((List.range n).map v) := by
    rw [searchIndex, hvalues, ← List.map_take, List.take_range, Nat.min_eq_left hn]
  have hle : lowerBound t.key.toNat ((List.range n).map v) ≤ n := by
    simpa using lowerBound_le t.key.toNat ((List.range n).map v)
  rw [hindex]
  refine ⟨hle, fun j hj => ?_, fun hlt => ?_⟩
  · have hless := lt_of_lt_lowerBound _ _ j hj
    rwa [getD_map_range (hj.trans_le hle)] at hless
  · have hat := le_at_lowerBound _ ((List.range n).map v) (by simpa using hlt)
    rwa [getD_map_range hlt] at hat

section
variable {w : WField} {n : NField} {t : State} {v : Nat → Nat}

/-- SELECT_D of a packed buffer whose reconstructed values are 32-bit values (R194). -/
theorem exec_selectD_value (hpkd : t.PackedUsable w.toNat) (hn : n.toNat ≤ 127)
    (hv : ∀ i, i < 128 → v i < 2 ^ 32) (hvalues : t.reconstructed w.toNat = (List.range 128).map v) :
    ∃ u, exec (.selectD w n) t = .next u ∧ statusState u.status = 1 ∧ u.res0.toNat = v n.toNat := by
  have hearly : earlyOf (.selectD w n) t = none :=
    earlyOf_of_usable hn (fun _ h => nomatch h) (fun _ h => Option.some.inj h ▸ hpkd)
  have hlt : v n.toNat < 2 ^ 32 := hv _ (by omega)
  have hget : (t.reconstructed w.toNat).getD n.toNat 0 = v n.toNat := hvalues ▸ getD_map_range (by omega)
  exact ⟨_, exec_ok hearly (if_pos (hget.symm ▸ hlt)), statusState_done _, by
    rw [State.complete_res0, hget, BitVec.toNat_ofNat, Nat.mod_eq_of_lt hlt]⟩

/-- SEARCH_D of a legal length passes its checks. -/
theorem earlyOf_searchD (hpkd : t.PackedUsable w.toNat) (hpos : 1 ≤ n.toNat) (hle : n.toNat ≤ 128) :
    earlyOf (.searchD w n) t = none :=
  earlyOf_of_usable ⟨hpos, hle⟩ (fun _ h => nomatch h) (fun _ h => Option.some.inj h ▸ hpkd)

/-- SEARCH_D whose search ends at `N` (R192). -/
theorem exec_searchD_notFound (hearly : earlyOf (.searchD w n) t = none)
    (hnone : ¬ searchIndex t w.toNat n.toNat < n.toNat) :
    exec (.searchD w n) t = .next (State.complete { t with
      res0 := BitVec.ofNat 32 n.toNat
      res1 := Config.freeRes1 t.draws
      draws := t.draws + 1 }) :=
  exec_ok hearly (if_neg hnone)

/-- `RES0` and `RES1` of SEARCH_D over a packed buffer whose reconstructed values are 32-bit values: the index of the
search and, where it is below `N`, the value at it (R191, R192). -/
theorem exec_searchD_results (hpkd : t.PackedUsable w.toNat) (hpos : 1 ≤ n.toNat) (hle : n.toNat ≤ 128)
    (hv : ∀ i, i < 128 → v i < 2 ^ 32) (hvalues : t.reconstructed w.toNat = (List.range 128).map v) :
    ∃ u, exec (.searchD w n) t = .next u ∧ statusState u.status = 1 ∧
      u.res0.toNat = searchIndex t w.toNat n.toNat ∧
      (u.res0.toNat < n.toNat → u.res1.toNat = v u.res0.toNat) := by
  have hearly := earlyOf_searchD hpkd hpos hle
  obtain ⟨hindex, -, -⟩ := searchIndex_spec hle hvalues
  by_cases hfound : searchIndex t w.toNat n.toNat < n.toNat
  case pos =>
    have hlt : v (searchIndex t w.toNat n.toNat) < 2 ^ 32 := hv _ (by omega)
    have hget : (t.reconstructed w.toNat).getD (searchIndex t w.toNat n.toNat) 0 =
        v (searchIndex t w.toNat n.toNat) := hvalues ▸ getD_map_range (by omega)
    have hres0 : (BitVec.ofNat 32 (searchIndex t w.toNat n.toNat)).toNat = searchIndex t w.toNat n.toNat :=
      Nat.mod_eq_of_lt (by omega)
    refine ⟨_, exec_ok hearly ((if_pos hfound).trans (if_pos (hget.symm ▸ hlt))), statusState_done _, hres0,
      fun _ => ?_⟩
    rw [State.complete_res0, State.complete_res1, hres0, hget, BitVec.toNat_ofNat, Nat.mod_eq_of_lt hlt]
  case neg =>
    have hres0 : (BitVec.ofNat 32 n.toNat).toNat = n.toNat := Nat.mod_eq_of_lt (by omega)
    exact ⟨_, exec_searchD_notFound hearly hfound, statusState_done _, hres0.trans (by omega),
      fun hlt => absurd hlt hres0.not_lt⟩

/-- SEARCH_D of such a buffer is the lower bound of its first `N` values (R196). -/
theorem exec_searchD_lowerBound (hpkd : t.PackedUsable w.toNat) (hpos : 1 ≤ n.toNat) (hle : n.toNat ≤ 128)
    (hv : ∀ i, i < 128 → v i < 2 ^ 32) (hvalues : t.reconstructed w.toNat = (List.range 128).map v) :
    ∃ u, exec (.searchD w n) t = .next u ∧ statusState u.status = 1 ∧ u.res0.toNat ≤ n.toNat ∧
      (∀ j, j < u.res0.toNat → v j < t.key.toNat) ∧
      (u.res0.toNat < n.toNat → t.key.toNat ≤ v u.res0.toNat ∧ u.res1.toNat = v u.res0.toNat) := by
  obtain ⟨u, hexec, hdone, hres0, hres1⟩ := exec_searchD_results hpkd hpos hle hv hvalues
  obtain ⟨hindex, hbefore, hat⟩ := searchIndex_spec hle hvalues
  rw [← hres0] at hindex hbefore hat
  exact ⟨u, hexec, hdone, hindex, hbefore, fun hlt => ⟨hat hlt, hres1 hlt⟩⟩

end

/-! ### The statements -/

/-- Settles O44: were the search to end below `N`, the value there would not be less than `KEY`. -/
theorem searchDNotFound : Obligations.SearchDNotFound := by
  intro w n s hpos hle hpkd hless
  obtain ⟨-, -, hfound⟩ := searchIndex_spec hle (s.reconstructed_eq_map_sumAt w.toNat)
  have hnone : ¬ searchIndex s w.toNat n.toNat < n.toNat := fun hlt =>
    absurd (hless _ hlt) (Nat.not_lt.2 (hfound hlt))
  exact ⟨_, exec_searchD_notFound (earlyOf_searchD hpkd hpos hle) hnone, rfl⟩

/-- Settles O53: after PACK_D the reconstructed values are the elements of the block, which are 32-bit values. -/
theorem selectAgreement : Obligations.SelectAgreement := by
  intro w s hblk hpkd (hfit : s.DeltasFit w.toNat)
  refine ⟨_, exec_packD_of_deltasFit hblk hpkd hfit, statusState_done _, fun n hn => ?_⟩
  exact exec_selectD_value hpkd hn (fun i _ => s.elem_lt i) (hfit.reconstructed_eq rfl rfl rfl)

/-- Settles O54: after PACK_D the reconstructed values are the elements of the block, which SEARCH_D searches. -/
theorem lowerBoundLaw : Obligations.LowerBoundLaw := by
  intro w s hblk hpkd (hfit : s.DeltasFit w.toNat)
  refine ⟨_, exec_packD_of_deltasFit hblk hpkd hfit, statusState_done _, fun n key hpos hle => ?_⟩
  exact exec_searchD_lowerBound hpkd hpos hle (fun i _ => s.elem_lt i) (hfit.reconstructed_eq rfl rfl rfl)

end Sys2Proof.Machine
end

section
/-! Proofs about the faults (spec/60_exceptions.md): what a fault changes (R214), the order of the checks (R221), and
when ERR_ORDER and ERR_RANGE are raised (R222, R223). -/

namespace Sys2Proof.Machine

/-! ### Faults entered -/

/-- The fault can be read back from the state it left. -/
theorem State.raise_injective {s : State} {c d : ErrCode} (h : s.raise c = s.raise d) : c = d := by
  have herr := congrArg (fun t : State => statusErr t.status) h
  simp only [State.raise_status, statusErr_fault] at herr
  exact ErrCode.code_injective herr

theorem State.complete_ne_raise (s t : State) (c : ErrCode) : t.complete ≠ s.raise c := fun h => by
  have hstate := congrArg (fun t : State => statusState t.status) h
  simp at hstate

/-- A command raises a fault when its checks find it, or when they find nothing and its data faults. -/
theorem exec_eq_raise_iff {i : Instr} {s : State} {c : ErrCode} :
    exec i s = .next (s.raise c) ↔ earlyOf i s = some c ∨ (earlyOf i s = none ∧ bodyOf i s = .error c) := by
  refine ⟨fun h => ?_, fun h => h.elim exec_early fun ⟨hearly, hbody⟩ => exec_error hearly hbody⟩
  obtain ⟨d, hd, hx⟩ | ⟨t, -, -, hx⟩ := exec_cases i s
  · rwa [State.raise_injective (Host.Outcome.next.inj (h.symm.trans hx))]
  · exact absurd (Host.Outcome.next.inj (hx.symm.trans h)) (State.complete_ne_raise s t c)

/-- With the checks passed the faults left are those in the data. -/
theorem exec_eq_raise_iff_of_checksPass {i : Instr} {s : State} {c : ErrCode} (h : ChecksPass i s) :
    exec i s = .next (s.raise c) ↔ bodyOf i s = .error c := by
  simp [exec_eq_raise_iff, (earlyOf_none i s).2 h]

theorem exec_raise_of_fault {i : Instr} {s t : State} (h : exec i s = .next t) (hfault : statusState t.status = 2) :
    ∃ c, t = s.raise c := by
  obtain ⟨c, -, hx⟩ | ⟨u, -, -, hx⟩ := exec_cases i s
  · exact ⟨c, Host.Outcome.next.inj (h.symm.trans hx)⟩
  · cases h.symm.trans hx
    simp at hfault

/-- A command or illegal word that ends in FAULT has entered some fault, from the state before it (R214). -/
theorem raise_of_afterCommand_fault {s t : State} (h : AfterCommand s t) (hfault : statusState t.status = 2) :
    ∃ c, t = s.raise c := by
  obtain ⟨i, hx⟩ | ⟨v, hx⟩ := h
  · exact exec_raise_of_fault hx hfault
  · obtain ⟨i, -, hv⟩ | hv := executeWord_cases v s
    · exact exec_raise_of_fault (hv.symm.trans hx) hfault
    · exact ⟨_, Host.Outcome.next.inj (hx.symm.trans hv)⟩

/-! ### The checks -/

/-- The checks of every command are those of `firstFault`, on its `W`, its `N` and its block buffer as the spec's
tables give them. -/
theorem earlyOf_eq_firstFault (i : Instr) :
    ∃ w argOk, widthFieldOf i = w.map BitVec.toNat ∧ (argOk = true ↔ ArgInRange i) ∧
      ∀ s, earlyOf i s = firstFault s w argOk (blockBytesOf i) := by
  cases i with
  | maxbits => exact ⟨none, true, rfl, by simp [ArgInRange], fun _ => rfl⟩
  | maxbitsD => exact ⟨none, true, rfl, by simp [ArgInRange], fun _ => rfl⟩
  | maxbitsDL n => exact ⟨none, lengthOk n, rfl, by simp [lengthOk, ArgInRange], fun _ => rfl⟩
  | searchD w n => exact ⟨some w, lengthOk n, rfl, by simp [lengthOk, ArgInRange], fun _ => rfl⟩
  | selectD w n => exact ⟨some w, indexOk n, rfl, by simp [indexOk, ArgInRange], fun _ => rfl⟩
  | pack w | unpack w | packD w | unpackD w | packM w =>
    exact ⟨some w, true, rfl, by simp [ArgInRange], fun _ => rfl⟩

section
variable {i : Instr} {w : Option WField} (hw : widthFieldOf i = w.map BitVec.toNat)
include hw

theorem widthOk_iff : widthOk w = true ↔ WidthPasses i := by
  cases w <;> simp [WidthPasses, hw, widthOk]

theorem sizeOk_iff (s : State) : sizeOk s w = true ↔ SizePasses i s := by
  cases w <;> simp [SizePasses, hw, sizeOk_none, sizeOk_some]

theorem aligned_iff (s : State) :
    (blockAligned s (blockBytesOf i) && packedAligned s w) = true ↔ AlignPasses i s := by
  rw [Bool.and_eq_true, AlignPasses, hw]
  refine and_congr ?_ ?_
  · cases blockBytesOf i <;> simp [blockAligned_none, blockAligned_some]
  · cases w <;> simp [packedAligned_none, packedAligned_some]

theorem exists_iff (s : State) :
    (blockExists s (blockBytesOf i) && packedExists s w) = true ↔ AddrPasses i s := by
  rw [Bool.and_eq_true, AddrPasses, hw]
  refine and_congr ?_ ?_
  · cases blockBytesOf i <;> simp [blockExists_none, blockExists_some]
  · cases w <;> simp [packedExists_none, packedExists_some]

end

open Classical in
/-- The checks in the order of R221, in the words of the spec's tables: the first that fails gives its fault. -/
theorem earlyOf_eq_ite (i : Instr) (s : State) :
    earlyOf i s =
      if ¬ WidthPasses i then some .errWidth
      else if ¬ ArgInRange i then some .errArg
      else if ¬ SizePasses i s then some .errSize
      else if ¬ AlignPasses i s then some .errAlign
      else if ¬ AddrPasses i s then some .errAddr
      else none := by
  obtain ⟨w, argOk, hw, harg, hearly⟩ := earlyOf_eq_firstFault i
  simp only [hearly, firstFault, ← widthOk_iff hw, ← harg, ← sizeOk_iff hw, ← aligned_iff hw, ← exists_iff hw,
    Bool.not_eq_true', Bool.not_eq_true]

/-- The checks find no fault in a command's data (R221, steps 2 to 6). -/
theorem earlyOf_ne_dataFault (i : Instr) (s : State) {c : ErrCode} (hc : c = .errOrder ∨ c = .errRange) :
    earlyOf i s ≠ some c := by
  rw [earlyOf_eq_ite]
  grind

/-! ### Faults in the data -/

/-- The commands that test the values they reconstruct (R223). -/
def TestsReconstructed (i : Instr) : Prop :=
  (∃ w, i = .unpackD w) ∨ (∃ w n, i = .selectD w n) ∨ ∃ w n, i = .searchD w n

/-- A body raises no fault but `ERR_ORDER` and `ERR_RANGE`, and each only in the three commands of its rule. -/
theorem bodyOf_error_cases {i : Instr} {s : State} {c : ErrCode} (h : bodyOf i s = .error c) :
    (c = .errOrder ∧ deltasTestedBy i ≠ none) ∨ (c = .errRange ∧ TestsReconstructed i) := by
  cases i with
  | maxbits => cases h
  | pack w | unpack w | packM w => cases h
  | maxbitsD | maxbitsDL n | packD w =>
    simp only [bodyOf, deltaWidth] at h
    split at h <;> cases h
    exact .inl ⟨rfl, nofun⟩
  | unpackD w =>
    simp only [bodyOf] at h
    split at h <;> cases h
    exact .inr ⟨rfl, .inl ⟨w, rfl⟩⟩
  | selectD w n =>
    simp only [bodyOf] at h
    split at h <;> cases h
    exact .inr ⟨rfl, .inr (.inl ⟨w, n, rfl⟩)⟩
  | searchD w n =>
    simp only [bodyOf] at h
    split at h
    · split at h <;> cases h
      exact .inr ⟨rfl, .inr (.inr ⟨w, n, rfl⟩)⟩
    · cases h

/-- A command that ends in a fault of the data has passed its checks. -/
theorem bodyOf_of_exec_eq_raise {i : Instr} {s : State} {c : ErrCode} (hc : c = .errOrder ∨ c = .errRange)
    (h : exec i s = .next (s.raise c)) : bodyOf i s = .error c :=
  ((exec_eq_raise_iff.1 h).resolve_left (earlyOf_ne_dataFault i s hc)).2

theorem bodyOf_eq_errOrder_iff {i : Instr} {n : Nat} (hi : deltasTestedBy i = some n) (s : State) :
    bodyOf i s = .error .errOrder ↔ ∃ j, j < n ∧ s.deltaAt j < 0 := by
  have hneg : (∃ j, j < n ∧ s.deltaAt j < 0) ↔ ¬ noneNegative (deltas s.offset.toNat (s.elements n)) = true := by
    simp [s.noneNegative_elements_iff]
  rw [hneg]
  cases i with
  | maxbitsD | maxbitsDL n | packD w => cases hi; simp [bodyOf, deltaWidth]
  | _ => cases hi

theorem State.getD_reconstructed (s : State) (b : Nat) {j : Nat} (hj : j < 128) :
    (s.reconstructed b).getD j 0 = s.sumAt b j := by
  rw [s.reconstructed_eq_map_sumAt, getD_map_range hj]

theorem bodyOf_unpackD_eq_errRange_iff (w : WField) (s : State) :
    bodyOf (.unpackD w) s = .error .errRange ↔ 2 ^ 32 ≤ s.sumAt w.toNat 127 := by
  simp only [bodyOf, s.getD_reconstructed w.toNat (by decide : 127 < 128)]
  simp

theorem bodyOf_selectD_eq_errRange_iff {w : WField} {n : NField} (hn : n.toNat ≤ 127) (s : State) :
    bodyOf (.selectD w n) s = .error .errRange ↔ 2 ^ 32 ≤ s.sumAt w.toNat n.toNat := by
  simp only [bodyOf, s.getD_reconstructed w.toNat (show n.toNat < 128 by omega)]
  simp

/-- The first value not less than the key is at the index the search ends at, if that is below `n` (R191). -/
theorem firstAtLeastKey_iff {s : State} {b n idx : Nat} (hn : n ≤ 128) :
    FirstAtLeastKey s b n idx ↔ idx = searchIndex s b n ∧ searchIndex s b n < n := by
  obtain ⟨hindex, hbefore, hat⟩ := searchIndex_spec hn (s.reconstructed_eq_map_sumAt b)
  constructor
  · rintro ⟨hidx, hkey, hless⟩
    have hge : ¬ idx < searchIndex s b n := fun h => absurd (hbefore idx h) (Nat.not_lt.2 hkey)
    have hle : ¬ searchIndex s b n < idx := fun h => absurd (hat (h.trans hidx)) (Nat.not_le.2 (hless _ h))
    omega
  · rintro ⟨rfl, hlt⟩
    exact ⟨hlt, hat hlt, hbefore⟩

theorem bodyOf_searchD_eq_errRange_iff {w : WField} {n : NField} (hn : n.toNat ≤ 128) (s : State) :
    bodyOf (.searchD w n) s = .error .errRange ↔
      ∃ idx, FirstAtLeastKey s w.toNat n.toNat idx ∧ 2 ^ 32 ≤ s.sumAt w.toNat idx := by
  simp only [firstAtLeastKey_iff hn, and_assoc, exists_eq_left, bodyOf]
  split
  · next hfound =>
    rw [s.getD_reconstructed w.toNat (by omega)]
    simp [hfound]
  · next hnone => simp [hnone]

/-! ### The statements -/

/-- Settles O20: the state after is `State.raise` of the state before, which touches `STATUS` only, and there leaves
the reserved bits. -/
theorem faultChangesStatusOnly : Obligations.FaultChangesStatusOnly := by
  refine ⟨fun s t h hfault => ?_, fun s => ⟨fun c => ⟨statusState_fault _ _, statusSfault_fault _ _, rfl⟩, ?_⟩⟩
  · obtain ⟨c, rfl⟩ := raise_of_afterCommand_fault h hfault
    exact ⟨rfl, statusSfault_fault _ _, ⟨c, rfl⟩, reservedLow_fault _ _, reservedHigh_fault _ _⟩
  · simp [ErrCode.code]

/-- Settles O27: `earlyOf_eq_ite` gives the checks in the order of R221, and past them only the data can fault. -/
theorem checksInOrder : Obligations.ChecksInOrder := by
  refine ⟨fun v s h => executeWord_of_noRow h s, fun i s => ⟨fun hw => ?_, fun hw harg => ?_, fun hw harg hsize => ?_,
    fun hw harg hsize halign => ?_, fun hw harg hsize halign haddr => ?_, fun hpass => ?data⟩⟩
  case data =>
    obtain ⟨c, hearly | ⟨-, hbody⟩, hx⟩ | ⟨t, -, -, hx⟩ := exec_cases i s
    · rw [(earlyOf_none i s).2 hpass] at hearly
      cases hearly
    · obtain ⟨rfl, -⟩ | ⟨rfl, -⟩ := bodyOf_error_cases hbody
      · exact ⟨_, hx, .inr (.inl rfl)⟩
      · exact ⟨_, hx, .inr (.inr rfl)⟩
    · exact ⟨_, hx, .inl (statusState_done _)⟩
  all_goals exact exec_early (by simp [earlyOf_eq_ite, *])

/-- Settles O29: past the checks `ERR_ORDER` is the fault of the bodies that test deltas, and of no other. -/
theorem orderFaultExactly : Obligations.OrderFaultExactly := by
  refine ⟨fun i n s hi hpass => ?_, fun i s h => ?_⟩
  · rw [exec_eq_raise_iff_of_checksPass hpass, bodyOf_eq_errOrder_iff hi]
  · obtain ⟨-, hi⟩ | ⟨hc, -⟩ := bodyOf_error_cases (bodyOf_of_exec_eq_raise (.inl rfl) h)
    · exact hi
    · cases hc

/-- Settles O30: past the checks `ERR_RANGE` is the fault of the three bodies that test a reconstructed value, and of
no other. -/
theorem rangeFaultExactly : Obligations.RangeFaultExactly := by
  refine ⟨fun w s hpass => ?unpackD, fun w n s hpass => ?selectD, fun w n s hpass => ?searchD, fun i s h => ?only⟩
  case unpackD => rw [exec_eq_raise_iff_of_checksPass hpass, bodyOf_unpackD_eq_errRange_iff]
  case selectD =>
    have ⟨_, hn, _⟩ := hpass
    rw [exec_eq_raise_iff_of_checksPass hpass, bodyOf_selectD_eq_errRange_iff hn]
  case searchD =>
    have ⟨_, ⟨_, hn⟩, _⟩ := hpass
    rw [exec_eq_raise_iff_of_checksPass hpass, bodyOf_searchD_eq_errRange_iff hn]
  case only =>
    obtain ⟨hc, -⟩ | ⟨-, hi⟩ := bodyOf_error_cases (bodyOf_of_exec_eq_raise (.inr rfl) h)
    · cases hc
    · exact hi

end Sys2Proof.Machine
end

section
/-! Proofs about the command word (spec/30_encoding.md): decoding and encoding are inverse, the rows of the opcode map
are disjoint (R90 to R99), and which commands fault in their operands (R97). -/

namespace Sys2Proof.Machine

/-! ### The unique row -/

theorem opcodes_nodup (masked : Bool) : ((opRows masked).map opcodeOf).Nodup := by
  revert masked; decide

/-- Two rows that select one word have its opcode, and so are one row (R90). -/
theorem row_unique {masked : Bool} {r r' : OpRow} {v : Word} (hr : r ∈ opRows masked) (hr' : r' ∈ opRows masked)
    (h : r.selects v = true) (h' : r'.selects v = true) : r = r' := by
  obtain ⟨hop, -⟩ := (selects_iff hr v).1 h
  obtain ⟨hop', -⟩ := (selects_iff hr' v).1 h'
  exact List.inj_on_of_nodup_map (opcodes_nodup masked) hr hr' (hop.symm.trans hop')

/-- A word decodes to a command exactly when some row selects it and makes the command of its fields. -/
theorem decodeOn_eq_ok_iff {masked : Bool} {v : Word} {i : Instr} :
    decodeOn masked v = .ok i ↔
      ∃ r ∈ opRows masked, r.selects v = true ∧ r.build (fieldW v) (fieldN v) = i := by
  unfold decodeOn
  cases hfind : (opRows masked).find? (fun r => r.selects v) with
  | none =>
    have hnone : ∀ r ∈ opRows masked, ¬ r.selects v = true := by simpa using hfind
    exact ⟨nofun, fun ⟨r, hr, hsel, _⟩ => absurd hsel (hnone r hr)⟩
  | some r =>
    have hr := List.mem_of_find?_eq_some hfind
    have hsel : r.selects v = true := List.find?_some (p := fun r : OpRow => r.selects v) hfind
    constructor
    · intro h
      exact ⟨r, hr, hsel, Except.ok.inj h⟩
    · rintro ⟨r', hr', hsel', rfl⟩
      rw [row_unique hr hr' hsel hsel']

/-! ### Command words -/

/-- A field widened to a word and shifted to a place inside it loses no bit. -/
theorem toNat_setWidth_shiftLeft {len lo : Nat} (x : BitVec len) (h : len + lo ≤ 32) :
    (x.setWidth 32 <<< lo).toNat = x.toNat <<< lo := by
  have hshift : x.toNat <<< lo < 2 ^ 32 :=
    (Nat.shiftLeft_lt x.isLt).trans_le (Nat.pow_le_pow_right (by decide) h)
  have hx : x.toNat < 2 ^ 32 := x.isLt.trans_le (Nat.pow_le_pow_right (by decide) (by omega))
  rw [BitVec.toNat_shiftLeft, BitVec.toNat_setWidth, Nat.mod_eq_of_lt hx, Nat.mod_eq_of_lt hshift]

/-- The parts of a command word do not overlap (R99). -/
theorem toNat_commandWord {op : Word} (hop : op.toNat < 2 ^ 8) (w : WField) (n : NField) :
    (commandWord op w n).toNat = op.toNat + w.toNat * 2 ^ 8 + n.toNat * 2 ^ 16 := by
  have hw := w.isLt
  have hn := n.isLt
  have hlow : op.toNat ||| w.toNat <<< 8 = w.toNat <<< 8 + op.toNat := by
    rw [Nat.or_comm, ← Nat.shiftLeft_add_eq_or_of_lt hop]
  have hhigh : w.toNat <<< 8 + op.toNat ||| n.toNat <<< 16 = n.toNat <<< 16 + (w.toNat <<< 8 + op.toNat) := by
    rw [Nat.or_comm, ← Nat.shiftLeft_add_eq_or_of_lt (by rw [Nat.shiftLeft_eq]; omega)]
  have hws : (w.setWidth 32 <<< 8).toNat = w.toNat <<< 8 := toNat_setWidth_shiftLeft w (by decide)
  have hns : (n.setWidth 32 <<< 16).toNat = n.toNat <<< 16 := toNat_setWidth_shiftLeft n (by decide)
  rw [commandWord, BitVec.toNat_or, BitVec.toNat_or, hws, hns, hlow, hhigh, Nat.shiftLeft_eq, Nat.shiftLeft_eq]
  omega

theorem toNat_fieldW (v : Word) : (fieldW v).toNat = field v 8 6 := by
  rw [fieldW, BitVec.extractLsb'_toNat, Nat.shiftRight_eq_div_pow, field]

theorem toNat_fieldN (v : Word) : (fieldN v).toNat = field v 16 8 := by
  rw [fieldN, BitVec.extractLsb'_toNat, Nat.shiftRight_eq_div_pow, field]

/-- The fields of R91 are read back from a command word. -/
theorem fieldW_commandWord {op : Word} (hop : op.toNat < 2 ^ 8) (w : WField) (n : NField) :
    fieldW (commandWord op w n) = w := by
  have hw := w.isLt
  rw [← BitVec.toNat_inj, toNat_fieldW, field, toNat_commandWord hop]
  omega

theorem fieldN_commandWord {op : Word} (hop : op.toNat < 2 ^ 8) (w : WField) (n : NField) :
    fieldN (commandWord op w n) = n := by
  have hw := w.isLt
  have hn := n.isLt
  rw [← BitVec.toNat_inj, toNat_fieldN, field, toNat_commandWord hop]
  omega

/-! ### Decoding an encoding -/

/-- Every command's row stands in the opcode map. -/
theorem rowOf_mem (i : Instr) : Laws.OwnRow.rowOf i ∈ opRows true := by
  cases i <;> simp [Laws.OwnRow.rowOf, opRows, baseRows, maskedRow]

/-- Every command's row selects its encoding (R90). -/
theorem rowOf_selects_encode (i : Instr) : (Laws.OwnRow.rowOf i).selects (encode i) = true := by
  cases i with
  | maxbits => exact Laws.OwnRow.maxbits
  | maxbitsD => exact Laws.OwnRow.maxbitsD
  | maxbitsDL n => exact Laws.OwnRow.maxbitsDL n
  | pack w => exact Laws.OwnRow.pack w
  | unpack w => exact Laws.OwnRow.unpack w
  | packD w => exact Laws.OwnRow.packD w
  | unpackD w => exact Laws.OwnRow.unpackD w
  | searchD w n => exact Laws.OwnRow.searchD w n
  | selectD w n => exact Laws.OwnRow.selectD w n
  | packM w => exact Laws.OwnRow.packM w

/-- A command's row makes the command again of the fields of its encoding. -/
theorem rowOf_build_encode (i : Instr) :
    (Laws.OwnRow.rowOf i).build (fieldW (encode i)) (fieldN (encode i)) = i := by
  cases i <;> simp [Laws.OwnRow.rowOf, encode, fieldW_commandWord, fieldN_commandWord]

/-- Settles O3: the row of the command selects its encoding, and the fields read there are its operands. -/
theorem decodeOfEncodeIsIdentity : Obligations.DecodeOfEncodeIsIdentity := fun i =>
  decodeOn_eq_ok_iff.2 ⟨_, rowOf_mem i, rowOf_selects_encode i, rowOf_build_encode i⟩

/-! ### Encoding what was decoded -/

/-- What a row's command encodes to: the row's opcode with the fields of its format, the others 0 (R92). -/
theorem encode_build {r : OpRow} (hr : r ∈ opRows true) (w : WField) (n : NField) :
    opcodeOf r = r.value.toNat ∧ r.value.toNat < 2 ^ 8 ∧ encode (r.build w n) =
      commandWord r.value (if opcodeOf r ∈ opsWithoutW then 0 else w) (if opcodeOf r ∈ opsWithoutN then 0 else n) := by
  simp only [opRows, baseRows, maskedRow, if_true, List.cons_append, List.nil_append, List.mem_cons,
    List.not_mem_nil, or_false] at hr
  obtain rfl | rfl | rfl | rfl | rfl | rfl | rfl | rfl | rfl | rfl := hr <;> exact ⟨rfl, by decide, rfl⟩

/-- Settles O4: the row that selects the word fixes its opcode and every bit outside the fields of its format. -/
theorem encodeOfDecodeIsIdentity : Obligations.EncodeOfDecodeIsIdentity := by
  intro v i h
  obtain ⟨r, hr, hsel, rfl⟩ := decodeOn_eq_ok_iff.1 h
  obtain ⟨hop, hlow, hhigh, hw, hn⟩ := (selects_iff hr v).1 hsel
  obtain ⟨hval, hlt, henc⟩ := encode_build hr (fieldW v) (fieldN v)
  rw [hop] at hw hn
  have hW : (if opcodeOf r ∈ opsWithoutW then 0 else fieldW v).toNat = field v 8 6 := by
    split
    · next hmem => exact (hw hmem).symm
    · exact toNat_fieldW v
  have hN : (if opcodeOf r ∈ opsWithoutN then 0 else fieldN v).toNat = field v 16 8 := by
    split
    · next hmem => exact (hn hmem).symm
    · exact toNat_fieldN v
  rw [henc, ← BitVec.toNat_inj, toNat_commandWord hlt, hW, hN, ← hval, ← hop]
  simp only [field] at hlow hhigh ⊢
  omega

/-! ### The statements on rows, words and fetching -/

/-- Settles O6: the rows have different opcodes, and a row selects only words of its own. -/
theorem opcodeRowsAreDisjoint : Obligations.OpcodeRowsAreDisjoint := by
  intro v j k r r' hj hk h h'
  obtain rfl := row_unique (List.mem_of_getElem? hj) (List.mem_of_getElem? hk) h h'
  have hnodup : (opRows true).Nodup := (opcodes_nodup true).of_map
  exact Fin.ext ((List.getElem?_inj j.isLt hnodup).1 (hj.trans hk.symm))

/-- Settles O2: each encoding is a command word, whose parts do not overlap. -/
theorem encodingsAreOpcodeAndFields : Obligations.EncodingsAreOpcodeAndFields := by
  simp [Obligations.EncodingsAreOpcodeAndFields, encode, toNat_commandWord]

/-- Settles O1: the decoder computes on the eight words. -/
theorem sampleCommandWordsDecode : Obligations.SampleCommandWordsDecode := by
  refine ⟨?_, ?_, ?_, ?_, ?_, ?_, ?_, ?_⟩ <;> rfl

/-- Settles O8: the write is one of `CMD`, whose word decodes to the command. -/
theorem cmdWriteRunsDecodedCommand : Obligations.CmdWriteRunsDecodedCommand := by
  intro s v rest i hscript hdecode
  calc step s = hostRegWrite 0x00#32 v { s with script := rest } := step_of_script hscript
    _ = executeWord v { s with script := rest, cmd := v } := hostRegWrite_of_eq_byteOffset .cmd v _ rfl
    _ = exec i { s with script := rest, cmd := v } := by rw [executeWord, hdecode]

/-- Settles O9: the word placed is the command's encoding, which decodes to it. -/
theorem fetchWordRunsNext : Obligations.FetchWordRunsNext := by
  intro i s
  have hword : BitVec.ofNat 32 ((encode i).toNat % 2 ^ 32) = encode i := by
    rw [Nat.mod_eq_of_lt (encode i).isLt, BitVec.ofNat_toNat, BitVec.setWidth_eq]
  have hscript : (s.withFetchWord 32 (encode i).toNat).script = .regWrite 0x00#32 (encode i) :: s.script := by
    rw [State.withFetchWord, hword]
  exact cmdWriteRunsDecodedCommand _ _ _ i hscript (decodeOfEncodeIsIdentity i)

/-! ### Ill-formed commands -/

/-- A command is well formed when the first two checks on its operands pass (R93, R94). -/
theorem wellFormed_iff (i : Instr) : i.wellFormed = true ↔ WidthPasses i ∧ ArgInRange i := by
  cases i <;> simp [Instr.wellFormed, wLegal, lengthLegal, indexLegal, WidthPasses, widthFieldOf, ArgInRange]

/-- The checks find `ERR_WIDTH` or `ERR_ARG`, codes 2 and 3, exactly in an ill-formed command (R97). -/
theorem earlyOf_code_iff {i : Instr} {s : State} {c : ErrCode} (h : earlyOf i s = some c) :
    i.wellFormed = false ↔ c.code = 2 ∨ c.code = 3 := by
  rw [← Bool.not_eq_true, wellFormed_iff]
  rw [earlyOf_eq_ite] at h
  split at h
  · next hw => cases h; simp [hw, ErrCode.code]
  split at h
  · next harg => cases h; simp [harg, ErrCode.code]
  next hw harg =>
    have hpass : WidthPasses i ∧ ArgInRange i := ⟨not_not.1 hw, not_not.1 harg⟩
    split at h
    · cases h; simp [hpass, ErrCode.code]
    split at h
    · cases h; simp [hpass, ErrCode.code]
    split at h
    · cases h; simp [hpass, ErrCode.code]
    · cases h

theorem wellFormed_of_earlyOf_none {i : Instr} {s : State} (h : earlyOf i s = none) : i.wellFormed = true := by
  obtain ⟨hw, harg, -⟩ := (earlyOf_none i s).1 h
  exact (wellFormed_iff i).2 ⟨hw, harg⟩

/-- Settles O7: the codes 2 and 3 come of the checks alone, and a well-formed command passes those that raise them. -/
theorem illFormedMeansOperandFault : Obligations.IllFormedMeansOperandFault := by
  intro i s t h
  obtain ⟨c, hearly | ⟨hearly, hbody⟩, hx⟩ | ⟨u, hearly, -, hx⟩ := exec_cases i s
  · cases h.symm.trans hx
    rw [State.raise_status, statusErr_fault, earlyOf_code_iff hearly]
  · cases h.symm.trans hx
    rw [State.raise_status, statusErr_fault, wellFormed_of_earlyOf_none hearly]
    obtain ⟨rfl, -⟩ | ⟨rfl, -⟩ := bodyOf_error_cases hbody <;> simp [ErrCode.code]
  · cases h.symm.trans hx
    simp [wellFormed_of_earlyOf_none hearly]

end Sys2Proof.Machine
end

section
/-! Proofs about steps and legal states (spec/10_state.md sections 4 and 8; 20_memory.md R60, R62): what a step can do,
said once, and from it that every step keeps a state legal and `SFAULT` set; canonical memories; host loads and
stores. -/

namespace Sys2Proof.Machine

/-! ### What a body keeps -/

/-- A command's body changes only results, memory and the counter of free values (10_state.md R21, R30). -/
theorem bodyOf_frame {i : Instr} {s t : State} (h : bodyOf i s = .ok t) :
    ∃ r0 r1 m d, t = { s with res0 := r0, res1 := r1, mem := m, draws := d } := by
  obtain ⟨r0, r1, d, rfl, -⟩ | ⟨ws, d, rfl, -⟩ | ⟨xs, -, rfl, -⟩ := bodyOf_cases h
  · exact ⟨r0, r1, s.mem, d, rfl⟩
  · exact ⟨s.res0, s.res1, _, d, rfl⟩
  · exact ⟨s.res0, s.res1, _, s.draws, rfl⟩

theorem bodyOf_status {i : Instr} {s t : State} (h : bodyOf i s = .ok t) : t.status = s.status := by
  obtain ⟨r0, r1, m, d, rfl⟩ := bodyOf_frame h
  rfl

/-! ### What a host action can do -/

/-- A host write of a register that ends: the write of a command word, of `STATUS`, or of an operand register, if the
register takes writes at all (R34). -/
theorem writeReg_cases {r : RegName} {v : Word} {s t : State} (h : writeReg r v s = .next t) :
    (r = .cmd ∧ executeWord v { s with cmd := v } = .next t) ∨
    (r = .status ∧ t = { s with status := statusWritten v s.status }) ∨
    (∃ o k b p l, t = { s with offset := o, key := k, blkAddr := b, pkdAddr := p, pkdLen := l }) := by
  cases r with
  | cmd => exact .inl ⟨rfl, h⟩
  | status => cases h; exact .inr (.inl ⟨rfl, rfl⟩)
  | _ => cases h; exact .inr (.inr ⟨_, _, _, _, _, rfl⟩)

/-- Every way a host action can end in a next state: a command, a write of `STATUS`, a store of bytes that exist, a
reset, or a change of operand registers and replies only (R33, R34; 70_reset_and_hazards.md R262). -/
theorem runAction_cases {a : HostAction} {s t : State} (h : runAction a s = .next t) :
    (∃ v, executeWord v { s with cmd := v } = .next t) ∨
    (∃ v, a = .regWrite 0x04#32 v ∧ t = { s with status := statusWritten v s.status }) ∨
    (∃ addr bs, s.BytesExist addr bs.length ∧ t = { s with mem := s.mem.writeBytes addr bs }) ∨
    (a = .reset ∧ t = s.resetRegs) ∨
    (∃ o k b p l rs,
      t = { s with offset := o, key := k, blkAddr := b, pkdAddr := p, pkdLen := l, replies := rs }) := by
  cases a with
  | regRead off => cases h; exact .inr (.inr (.inr (.inr ⟨_, _, _, _, _, _, rfl⟩)))
  | regWrite off v =>
    obtain ⟨r, rfl, hw⟩ | hw := hostRegWrite_cases off v s
    · obtain ⟨-, hx⟩ | ⟨rfl, rfl⟩ | ⟨o, k, b, p, l, rfl⟩ := writeReg_cases (hw.symm.trans h)
      · exact .inl ⟨v, hx⟩
      · exact .inr (.inl ⟨v, rfl, rfl⟩)
      · exact .inr (.inr (.inr (.inr ⟨_, _, _, _, _, _, rfl⟩)))
    · cases hw.symm.trans h
      exact .inr (.inr (.inr (.inr ⟨_, _, _, _, _, _, rfl⟩)))
  | load addr n =>
    simp only [runAction, hostLoad] at h
    split at h <;> cases h
    exact .inr (.inr (.inr (.inr ⟨_, _, _, _, _, _, rfl⟩)))
  | store addr bs =>
    simp only [runAction, hostStore] at h
    split at h
    · next hexists => cases h; exact .inr (.inr (.inl ⟨_, bs, (bufferExists_iff _ _ _).1 hexists, rfl⟩))
    · cases h
  | reset => cases h; exact .inr (.inr (.inr (.inl ⟨rfl, rfl⟩)))

/-- With no host action left the core holds its state (60_exceptions.md R231). -/
theorem step_of_script_nil {s : State} (h : s.script = []) : step s = .next s := by
  rw [step, runNextAction, h]

/-- A step holds the state, with no action left, or runs the action at the head of the script. -/
theorem step_cases {s t : State} (h : step s = .next t) :
    t = s ∨ ∃ a rest, s.script = a :: rest ∧ runAction a { s with script := rest } = .next t := by
  cases hscript : s.script with
  | nil => exact .inl (Host.Outcome.next.inj (h.symm.trans (step_of_script_nil hscript)))
  | cons a rest => exact .inr ⟨a, rest, rfl, (step_of_script hscript).symm.trans h⟩

/-! ### Legal states -/

/-- The memory of a legal state: canonical, and listing only addresses that exist. -/
def State.MemLegal (s : State) : Prop := s.mem.wf = true ∧ ∀ c ∈ s.mem, s.AddressExists c.1

/-- A legal state but for what IDLE means: how a state stands once `CMD` has been written, when its command has not
run yet. -/
def State.LegalButIdle (s : State) : Prop :=
  s.MemLegal ∧ StatusLegal s.status ∧ s.cap = capValue Config.hasMaskedPack Config.layout

section
variable {s : State}

theorem State.LegalButIdle.legal (h : s.LegalButIdle) (hidle : s.IdleMeansFresh) : s.Legal := by
  obtain ⟨⟨hwf, hlisted⟩, hstatus, hcap⟩ := h
  exact ⟨hwf, hlisted, hstatus, hidle, hcap⟩

theorem State.Legal.butIdle (h : s.Legal) : s.LegalButIdle := by
  obtain ⟨hwf, hlisted, hstatus, -, hcap⟩ := h
  exact ⟨⟨hwf, hlisted⟩, hstatus, hcap⟩

theorem State.Legal.idleMeansFresh (h : s.Legal) : s.IdleMeansFresh := by
  obtain ⟨-, -, -, hidle, -⟩ := h
  exact hidle

/-- A memory written only at addresses that exist stays legal. -/
theorem State.MemLegal.of_write {m : Memory} (h : s.MemLegal) (hwf : m.wf = true)
    (hlisted : ∀ c ∈ m, c ∈ s.mem ∨ s.AddressExists c.1) : State.MemLegal { s with mem := m } :=
  ⟨hwf, fun c hc => (hlisted c hc).elim (h.2 c) id⟩

/-- An address inside `n` bytes that exist is one that exists. -/
theorem State.BytesExist.addressExists {a n c : Nat} (h : s.BytesExist a n) (hc : a ≤ c ∧ c < a + n) :
    s.AddressExists c := by
  obtain ⟨-, hbytes⟩ := h
  have hj := hbytes (c - a) (by omega)
  rwa [show a + (c - a) = c by omega] at hj

end

theorem StatusLegal.done {v : Word} (h : StatusLegal v) : StatusLegal (statusDone v) := by
  obtain ⟨-, -, -, hlow, hhigh⟩ := h
  refine ⟨by simp, by simp, by simp, ?_, ?_⟩
  · rw [reservedLow_done, hlow]
  · rw [reservedHigh_done, hhigh]

theorem StatusLegal.fault {v : Word} (h : StatusLegal v) (c : ErrCode) : StatusLegal (statusFault c v) := by
  obtain ⟨-, -, -, hlow, hhigh⟩ := h
  have hpos := c.code_pos
  refine ⟨by simp, by simpa using c.code_le, by simp; omega, ?_, ?_⟩
  · rw [reservedLow_fault, hlow]
  · rw [reservedHigh_fault, hhigh]

theorem StatusLegal.written {v : Word} (h : StatusLegal v) (w : Word) : StatusLegal (statusWritten w v) := by
  obtain ⟨hstate, herr, hiff, hlow, hhigh⟩ := h
  refine ⟨by simpa using hstate, by simpa using herr, by simpa using hiff, ?_, ?_⟩
  · rw [reservedLow_written, hlow]
  · rw [reservedHigh_written, hhigh]

/-- Fault entry gives a legal state, and never IDLE. -/
theorem State.LegalButIdle.raise {s : State} (h : s.LegalButIdle) (c : ErrCode) : (s.raise c).Legal := by
  obtain ⟨hmem, hstatus, hcap⟩ := h
  have hbut : (s.raise c).LegalButIdle := ⟨hmem, hstatus.fault c, hcap⟩
  exact hbut.legal fun hidle => by simp at hidle

/-- Completion gives a legal state, and never IDLE. -/
theorem State.LegalButIdle.complete {s : State} (h : s.LegalButIdle) : s.complete.Legal := by
  obtain ⟨hmem, hstatus, hcap⟩ := h
  have hbut : s.complete.LegalButIdle := ⟨hmem, hstatus.done, hcap⟩
  exact hbut.legal fun hidle => by simp at hidle

/-- A command writes memory only inside its destination buffer, whose bytes exist once its checks have passed
(20_memory.md R66). -/
theorem bodyOf_memLegal {i : Instr} {s t : State} (hs : s.MemLegal) (hpass : ChecksPass i s)
    (h : bodyOf i s = .ok t) : t.MemLegal := by
  obtain ⟨-, -, -, -, hblk, hpkd⟩ := hpass
  obtain ⟨r0, r1, d, rfl, -⟩ | ⟨ws, d, rfl, -, hw, -⟩ | ⟨xs, hlen, rfl, -, hbytes⟩ := bodyOf_cases h
  · exact hs
  · refine hs.of_write (Memory.wf_storePacked hs.1 _ _) fun c hc => (Memory.mem_storePacked hc).imp_right fun hin => ?_
    exact (hpkd _ hw (by omega)).addressExists hin
  · refine hs.of_write (Memory.wf_storeBlock hs.1 _ _) fun c hc => (Memory.mem_storeBlock hc).imp_right fun hin => ?_
    exact (hblk _ hbytes).addressExists (by omega)

/-- A command ends in a legal state. -/
theorem exec_legal {i : Instr} {s t : State} (hs : s.LegalButIdle) (h : exec i s = .next t) : t.Legal := by
  obtain ⟨c, -, hx⟩ | ⟨u, hearly, hbody, hx⟩ := exec_cases i s
  · cases h.symm.trans hx
    exact hs.raise c
  · cases h.symm.trans hx
    obtain ⟨hmem, hstatus, hcap⟩ := hs
    have humem := bodyOf_memLegal hmem ((earlyOf_none i s).1 hearly) hbody
    obtain ⟨r0, r1, m, d, rfl⟩ := bodyOf_frame hbody
    exact State.LegalButIdle.complete ⟨humem, hstatus, hcap⟩

theorem executeWord_legal {v : Word} {s t : State} (hs : s.LegalButIdle) (h : executeWord v s = .next t) :
    t.Legal := by
  obtain ⟨i, -, hx⟩ | hx := executeWord_cases v s
  · exact exec_legal hs (hx.symm.trans h)
  · cases hx.symm.trans h
    exact hs.raise .errOp

/-- Settles O16: the reset state computes. -/
theorem legalAtReset : Obligations.LegalAtReset :=
  ⟨rfl, nofun, by decide, fun _ => by decide, by decide⟩

/-- A host action ends in a legal state. -/
theorem runAction_legal {a : HostAction} {s t : State} (hs : s.Legal) (h : runAction a s = .next t) : t.Legal := by
  obtain ⟨hmem, hstatus, hcap⟩ := hs.butIdle
  obtain ⟨v, hx⟩ | ⟨v, -, rfl⟩ | ⟨addr, bs, hexists, rfl⟩ | ⟨-, rfl⟩ | ⟨o, k, b, p, l, rs, rfl⟩ := runAction_cases h
  case inl => exact executeWord_legal (s := { s with cmd := v }) ⟨hmem, hstatus, hcap⟩ hx
  case inr.inl =>
    refine State.LegalButIdle.legal ⟨hmem, hstatus.written v, hcap⟩ fun hidle => ?_
    obtain ⟨hcmd, hres0, hres1, hsfault⟩ := hs.idleMeansFresh (by simpa using hidle)
    exact ⟨hcmd, hres0, hres1, by simp [statusSfault_written, hsfault]⟩
  case inr.inr.inl =>
    have hmem' : State.MemLegal { s with mem := s.mem.writeBytes addr bs } :=
      hmem.of_write (Memory.wf_writeBytes hmem.1 _ _) fun c hc =>
        (Memory.mem_writeBytes hc).imp_right hexists.addressExists
    exact State.LegalButIdle.legal ⟨hmem', hstatus, hcap⟩ hs.idleMeansFresh
  case inr.inr.inr.inl =>
    obtain ⟨-, -, hstatus0, hidle0, hcap0⟩ := legalAtReset
    exact State.LegalButIdle.legal ⟨hmem, hstatus0, hcap0⟩ hidle0
  case inr.inr.inr.inr => exact hs

/-- Settles O17: a step runs a host action, each of which ends in a legal state, or holds the state. -/
theorem stepKeepsLegal : Obligations.StepKeepsLegal := by
  intro s t hs h
  obtain rfl | ⟨a, rest, -, hrun⟩ := step_cases h
  · exact hs
  · exact runAction_legal (s := { s with script := rest }) hs hrun

/-- Settles O14: an empty script is the case of a step that holds the state. -/
theorem idleStepKeepsState : Obligations.IdleStepKeepsState := fun _ h => step_of_script_nil h

/-! ### SFAULT -/

/-- A command, legal word or not, never clears `SFAULT` (60_exceptions.md R225). -/
theorem exec_goneWrong {i : Instr} {s t : State} (hs : s.GoneWrong) (h : exec i s = .next t) : t.GoneWrong := by
  obtain ⟨c, -, hx⟩ | ⟨u, -, hbody, hx⟩ := exec_cases i s
  · cases h.symm.trans hx
    exact statusSfault_fault _ _
  · cases h.symm.trans hx
    rw [State.GoneWrong, State.complete_status, statusSfault_done, bodyOf_status hbody]
    exact hs

theorem executeWord_goneWrong {v : Word} {s t : State} (hs : s.GoneWrong) (h : executeWord v s = .next t) :
    t.GoneWrong := by
  obtain ⟨i, -, hx⟩ | hx := executeWord_cases v s
  · exact exec_goneWrong hs (hx.symm.trans h)
  · cases hx.symm.trans h
    exact statusSfault_fault _ _

/-- Settles O24: of what a host action can do, only a reset and a write of `STATUS` with bit 8 set clear `SFAULT`. -/
theorem sfaultIsSticky : Obligations.SfaultIsSticky := by
  intro s t hs h hreset hclear
  obtain rfl | ⟨a, rest, hscript, hrun⟩ := step_cases h
  · exact hs
  rw [hscript, List.head?_cons] at hreset hclear
  obtain ⟨v, hx⟩ | ⟨v, rfl, rfl⟩ | ⟨addr, bs, -, rfl⟩ | ⟨rfl, -⟩ | ⟨o, k, b, p, l, rs, rfl⟩ := runAction_cases hrun
  case inl => exact executeWord_goneWrong (s := { s with script := rest, cmd := v }) hs hx
  case inr.inl =>
    rw [State.GoneWrong, statusSfault_written, if_neg (by simp [hclear v rfl])]
    exact hs
  case inr.inr.inl => exact hs
  case inr.inr.inr.inl => exact absurd rfl hreset
  case inr.inr.inr.inr => exact hs

/-! ### Memory -/

/-- A canonical memory lists exactly the addresses that do not read 0, each with its byte. -/
theorem Memory.mem_iff_read {m : Memory} (h : m.wf = true) (c : Host.Cell) :
    c ∈ m ↔ m.read c.1 = c.2 ∧ c.2 ≠ 0#8 := by
  obtain ⟨hsorted, hnonzero⟩ := (Memory.wf_iff m).1 h
  constructor
  · intro hc
    refine ⟨?_, hnonzero c hc⟩
    clear h hnonzero
    induction m with
    | nil => cases hc
    | cons x rest ih =>
      obtain ⟨hlt, hrest⟩ := List.pairwise_cons.1 hsorted
      rw [Memory.read_cons]
      rcases List.mem_cons.1 hc with rfl | hc
      · exact if_pos rfl
      · rw [if_neg (hlt c hc).ne]
        exact ih hrest hc
  · rintro ⟨hread, hne⟩
    clear h hnonzero hsorted
    induction m with
    | nil => exact absurd hread.symm hne
    | cons x rest ih =>
      rw [Memory.read_cons] at hread
      split at hread
      · next hx => exact List.mem_cons.2 (.inl (Prod.ext hx.symm hread.symm))
      · exact List.mem_cons_of_mem _ (ih hread)

/-- Settles O18: two canonical memories that read alike list the same cells, in the order of their addresses. -/
theorem canonicalMemoriesAreEqual : Obligations.CanonicalMemoriesAreEqual := by
  intro m m' h h' hread
  have hirrefl : Std.Irrefl fun x y : Host.Cell => x.1 < y.1 := ⟨fun x => lt_irrefl x.1⟩
  have hantisymm : Std.Antisymm fun x y : Host.Cell => x.1 < y.1 := ⟨fun _ _ hxy hyx => absurd hxy hyx.asymm⟩
  refine List.Pairwise.eq_of_mem_iff ((Memory.wf_iff m).1 h).1 ((Memory.wf_iff m').1 h').1 fun c => ?_
  rw [Memory.mem_iff_read h, Memory.mem_iff_read h', hread]

/-- Settles O12: a store writes the bytes in order and a load reads them; the bytes that do not exist stop both. -/
theorem hostMemoryLoadStore : Obligations.HostMemoryLoadStore := by
  refine ⟨fun s a bs rest hscript => ?store, fun s a n rest hscript => ?load⟩
  case store =>
    have hstep : step s = hostStore a bs { s with script := rest } := step_of_script hscript
    rw [hstep, hostStore]
    refine ⟨fun hexists => ?_, fun hexists => if_neg (mt (bufferExists_iff s _ _).1 hexists)⟩
    exact ⟨_, if_pos ((bufferExists_iff s _ _).2 hexists), rfl, fun j => Memory.read_writeBytes_inside _ _ j bs,
      fun c => Memory.read_writeBytes_outside _ _ c bs⟩
  case load =>
    have hstep : step s = hostLoad a n { s with script := rest } := step_of_script hscript
    rw [hstep, hostLoad]
    refine ⟨fun hexists => ?_, fun hexists => if_neg (mt (bufferExists_iff s _ _).1 hexists)⟩
    exact ⟨s.mem.readBytes a.toNat n, by simp [Memory.readBytes], if_pos ((bufferExists_iff s _ _).2 hexists),
      fun j hj => by simp [Memory.readBytes]⟩

end Sys2Proof.Machine
end

section
/-! Proofs about what every command does (spec/60_exceptions.md R211 to R214, R225; 70_reset_and_hazards.md R265;
10_state.md R21, R30): how it ends, its frame, the codes it raises, and that a fault raised again is the same. -/

namespace Sys2Proof.Machine

/-! ### How a command ends -/

/-- Settles O19: a command completes or enters a fault from the state before. -/
theorem everyCommandCompletesOrFaults : Obligations.EveryCommandCompletesOrFaults := by
  intro i s
  obtain ⟨c, -, hx⟩ | ⟨u, -, -, hx⟩ := exec_cases i s
  · exact ⟨_, hx, .inr ⟨c, rfl⟩⟩
  · exact ⟨_, hx, .inl ⟨statusState_done _, statusErr_done _⟩⟩

/-- A command that ends with `STATE` other than FAULT has passed its checks and completed its body's state (R213). -/
theorem exec_completes {i : Instr} {s t : State} (h : exec i s = .next t) (hstate : statusState t.status ≠ 2) :
    ChecksPass i s ∧ ∃ u, bodyOf i s = .ok u ∧ t = u.complete := by
  obtain ⟨c, -, hx⟩ | ⟨u, hearly, hbody, hx⟩ := exec_cases i s
  · cases h.symm.trans hx
    exact absurd (statusState_fault _ _) hstate
  · exact ⟨(earlyOf_none i s).1 hearly, u, hbody, Host.Outcome.next.inj (h.symm.trans hx)⟩

/-- Settles O21: completion writes `STATE` and `ERR` of the `STATUS` before, which the body has left alone. -/
theorem completionSetsDone : Obligations.CompletionSetsDone := by
  intro i s t h hstate
  obtain ⟨-, u, hbody, rfl⟩ := exec_completes h hstate
  rw [State.complete_status, bodyOf_status hbody]
  exact ⟨statusState_done _, statusErr_done _, statusSfault_done _, reservedLow_done _, reservedHigh_done _⟩

/-! ### The frame -/

/-- A body writes memory in the command's destination buffer only (20_memory.md R76; 00_scope.md R18). -/
theorem bodyOf_read_outside {i : Instr} {s t : State} (h : bodyOf i s = .ok t) {a : Nat}
    (ha : ¬ InBuffer (destinationOf i s) a) : t.mem.read a = s.mem.read a := by
  simp only [InBuffer, not_and_or, not_le, not_lt] at ha
  obtain ⟨r0, r1, d, rfl, -⟩ | ⟨ws, d, rfl, hdest, -⟩ | ⟨xs, hlen, rfl, hdest, -⟩ := bodyOf_cases h
  · rfl
  · rw [hdest] at ha
    exact Memory.read_storePacked_outside _ _ _ _ ha
  · rw [hdest] at ha
    exact Memory.read_storeBlock_outside _ _ _ _ (by rw [hlen]; exact ha)

/-- A body writes only the result registers its command produces (10_state.md R30). -/
theorem bodyOf_results {i : Instr} {s t : State} (h : bodyOf i s = .ok t) :
    (.res0 ∉ resultsOf i → t.res0 = s.res0) ∧ (.res1 ∉ resultsOf i → t.res1 = s.res1) := by
  obtain ⟨r0, r1, d, rfl, h0, h1⟩ | ⟨ws, d, rfl, -⟩ | ⟨xs, -, rfl, -⟩ := bodyOf_cases h
  · exact ⟨fun hres => not_not.1 (mt h0 hres), fun hres => not_not.1 (mt h1 hres)⟩
  · exact ⟨fun _ => rfl, fun _ => rfl⟩
  · exact ⟨fun _ => rfl, fun _ => rfl⟩

/-- Settles O22: a fault writes `STATUS` only, and a completed command has its body's frame. -/
theorem commandFrame : Obligations.CommandFrame := by
  intro i s t h
  obtain ⟨c, -, hx⟩ | ⟨u, -, hbody, hx⟩ := exec_cases i s
  · cases h.symm.trans hx
    simp
  · cases h.symm.trans hx
    have ⟨hres0, hres1⟩ := bodyOf_results hbody
    have hmem := fun a => bodyOf_read_outside (a := a) hbody
    obtain ⟨r0, r1, m, d, rfl⟩ := bodyOf_frame hbody
    exact ⟨rfl, rfl, rfl, rfl, rfl, rfl, rfl, rfl, rfl, rfl, hres0, hres1, hmem⟩

/-! ### Faults -/

/-- Entering a fault twice is entering it once. -/
theorem State.raise_raise (s : State) (c : ErrCode) : (s.raise c).raise c = s.raise c := by
  have hcode := c.code_le
  have hstatus : statusFault c (statusFault c s.status) = statusFault c s.status := by
    rw [← BitVec.toNat_inj, toNat_statusFault, toNat_statusFault]
    omega
  rw [State.raise, State.raise_status, hstatus]
  rfl

theorem status_notMem_registersReadBy (i : Instr) : .status ∉ registersReadBy i := by
  cases i <;> grind [registersReadBy]

/-- No command reads `STATUS`, all that fault entry writes (10_state.md R31). -/
theorem sameInputs_raise (i : Instr) (s : State) (c : ErrCode) : SameInputs i s (s.raise c) := by
  refine ⟨rfl, rfl, fun r hr => ?_, fun _ _ => rfl⟩
  cases r with
  | status => exact absurd hr (status_notMem_registersReadBy i)
  | _ => rfl

/-- Where a body faults, it faults alike in a state with the same inputs. -/
theorem SameInputs.bodyOf_error {i : Instr} {s s' : State} {c : ErrCode} (h : SameInputs i s s')
    (hbody : bodyOf i s = .error c) : bodyOf i s' = .error c := by
  have hagree := h.bodiesAgree
  rw [hbody] at hagree
  cases hbody' : bodyOf i s' with
  | error c' => rw [hbody'] at hagree; exact congrArg Except.error (Eq.symm hagree)
  | ok t => rw [hbody'] at hagree; exact hagree.elim

/-- Settles O25: the state after the fault has the same inputs, so that checks and body fault alike, and entering the
fault again changes nothing. -/
theorem repeatedFaultIsTheSame : Obligations.RepeatedFaultIsTheSame := by
  intro i s c h
  have hsame := sameInputs_raise i s c
  have hagain : exec i (s.raise c) = .next ((s.raise c).raise c) := by
    rw [exec_eq_raise_iff, ← hsame.earlyOf_eq]
    exact (exec_eq_raise_iff.1 h).imp_right (And.imp_right hsame.bodyOf_error)
  rwa [State.raise_raise] at hagain

/-- What a check finds is a code the table gives the command: a check that can fail looks at an operand the command
has (R212, R216 to R220). -/
theorem earlyOf_mem_faultsOf {i : Instr} {s : State} {c : ErrCode} (h : earlyOf i s = some c) :
    c ∈ faultsOf i := by
  have hwidth : ¬ WidthPasses i → .errWidth ∈ faultsOf i := by
    cases i <;> simp [WidthPasses, widthFieldOf, faultsOf]
  have harg : ¬ ArgInRange i → .errArg ∈ faultsOf i := by
    cases i <;> simp [ArgInRange, faultsOf]
  have hsize : ¬ SizePasses i s → .errSize ∈ faultsOf i := by
    cases i <;> simp [SizePasses, widthFieldOf, faultsOf]
  have hbuffers : .errAlign ∈ faultsOf i ∧ .errAddr ∈ faultsOf i := by
    cases i <;> simp [faultsOf]
  rw [earlyOf_eq_ite] at h
  grind

/-- What a body raises is a code the table gives the command (R212, R222, R223). -/
theorem bodyOf_error_mem_faultsOf {i : Instr} {s : State} {c : ErrCode} (h : bodyOf i s = .error c) :
    c ∈ faultsOf i := by
  obtain ⟨rfl, hdeltas⟩ | ⟨rfl, ⟨w, rfl⟩ | ⟨w, n, rfl⟩ | ⟨w, n, rfl⟩⟩ := bodyOf_error_cases h
  · cases i <;> simp [deltasTestedBy, faultsOf] at hdeltas ⊢
  all_goals simp [faultsOf]

/-- Settles O26: a command raises what its checks find or what its body raises. -/
theorem commandsRaiseOnlyTheirFaults : Obligations.CommandsRaiseOnlyTheirFaults := by
  refine ⟨fun i s c h => ?_, fun i => by cases i <;> simp [faultsOf]⟩
  exact (exec_eq_raise_iff.1 h).elim earlyOf_mem_faultsOf fun ⟨_, hbody⟩ => bodyOf_error_mem_faultsOf hbody

end Sys2Proof.Machine
end

section
/-! Proofs about the results of the commands when they complete: the analyzer (spec/40_analyzer.md R121 to R123), the
packers and unpackers (41_pack_unpack.md, 42_delta.md), search and select (43_search_select.md R191, R194, R197). -/

namespace Sys2Proof.Machine

/-! ### The analyzer -/

/-- Settles O31: the elements are 32-bit values, and the body stores their width. -/
theorem maxbitsResult : Obligations.MaxbitsResult := by
  intro s hblk
  have hearly : earlyOf .maxbits s = none := earlyOf_of_usable trivial (by rintro _ ⟨⟩; exact hblk) nofun
  exact ⟨_, isWidth_width fun i _ => s.elem_lt i, exec_ok hearly rfl⟩

/-- When no delta is negative their least width is found (R122, R123). -/
theorem deltaWidth_of_nonneg {s : State} {n : Nat} (h : ∀ j, j < n → 0 ≤ s.deltaAt j) :
    ∃ b, IsWidth (fun j => (s.deltaAt j).toNat) n b ∧
      deltaWidth s n = .ok { s with res0 := BitVec.ofNat 32 b } := by
  have hlt : ∀ j, j < n → (s.deltaAt j).toNat < 2 ^ 32 := fun j _ => by have := s.deltaAt_lt j; omega
  refine ⟨_, isWidth_width hlt, ?_⟩
  rw [deltaWidth, if_pos ((s.noneNegative_elements_iff n).2 h), State.deltaValues_elements]

/-- A command that passes its checks and looks for the width of deltas none of which is negative. -/
theorem exec_deltaWidth {i : Instr} {s : State} {n : Nat} (hearly : earlyOf i s = none)
    (hbody : bodyOf i s = deltaWidth s n) (h : ∀ j, j < n → 0 ≤ s.deltaAt j) :
    ∃ b, IsWidth (fun j => (s.deltaAt j).toNat) n b ∧
      exec i s = .next { s with res0 := BitVec.ofNat 32 b, status := statusDone s.status } := by
  obtain ⟨b, hwidth, hok⟩ := deltaWidth_of_nonneg h
  exact ⟨b, hwidth, exec_ok hearly (hbody.trans hok)⟩

/-- Settles O32: the deltas looked at are 128. -/
theorem maxbitsDResult : Obligations.MaxbitsDResult := fun _ hblk hsign =>
  exec_deltaWidth (earlyOf_of_usable trivial (by rintro _ ⟨⟩; exact hblk) nofun) rfl hsign

/-- Settles O33: the deltas looked at are `N`, whose elements are the block buffer to be checked. -/
theorem maxbitsDLResult : Obligations.MaxbitsDLResult := fun _ _ hpos hle hblk hsign =>
  exec_deltaWidth (earlyOf_of_usable ⟨hpos, hle⟩ (by rintro _ ⟨⟩; exact hblk) nofun) rfl hsign

/-! ### The packers -/

/-- Bit `k` of element `i` of the packed buffer, as a number. -/
theorem State.packedBit_eq_testBit_packedElem (s : State) {b i k : Nat} (hi : i < 128) (hk : k < b) :
    s.packedBit b i k = (s.packedElem b i).testBit k := by
  rw [s.packedElem_eq_digit b hi, testBit_digit, s.packedBit_eq_testBit_packedStream hi hk]
  simp [hk]

/-- Values that fit are in the packed buffer they were stored in, and no byte outside it has changed
(20_memory.md R72). -/
theorem storesPacked_storeValues (s : State) {b : Nat} {v : Nat → Nat} (h : ∀ i, i < 128 → v i < 2 ^ b) :
    StoresPacked s (s.storeValues b ((List.range 128).map v)).complete b v := by
  have hunpacked : (s.storeValues b ((List.range 128).map v)).complete.unpacked b = (List.range 128).map v :=
    State.unpacked_of_storeValues (s := s) (by simp) (by simpa using h) rfl rfl
  rw [State.unpacked_eq_map_packedElem] at hunpacked
  refine ⟨fun i hi k hk => ?_, fun a ha => Memory.read_storePacked_outside _ _ _ _ (by simpa using ha)⟩
  rw [State.packedBit_eq_testBit_packedElem _ hi hk,
    List.map_inj_left.1 hunpacked i (List.mem_range.2 hi)]

/-- A packer whose values fit completes and stores them. -/
theorem exec_storesPacked {i : Instr} {s : State} {b : Nat} {v : Nat → Nat} (hearly : earlyOf i s = none)
    (hbody : bodyOf i s = .ok (s.storeValues b ((List.range 128).map v))) (h : ∀ i, i < 128 → v i < 2 ^ b) :
    ∃ t, exec i s = .next t ∧ CompletesInMemory s t ∧ StoresPacked s t b v :=
  ⟨_, exec_ok hearly hbody, rfl, storesPacked_storeValues s h⟩

/-- Settles O36: the elements fit, so that they are stored as packed. -/
theorem packResult : Obligations.PackResult := fun _ _ hblk hpkd hfit =>
  exec_storesPacked (earlyOf_of_packedUsable hblk hpkd trivial rfl rfl)
    (congrArg Except.ok (State.storeUnmasked_of_fit hfit)) hfit

/-- Settles O37: the elements are cut to their low bits, which fit. -/
theorem packMResult : Obligations.PackMResult := by
  intro w s hblk hpkd
  refine exec_storesPacked (earlyOf_of_packedUsable hblk hpkd trivial rfl rfl) ?_
    fun i _ => Nat.mod_lt _ (Nat.two_pow_pos _)
  rw [bodyOf, State.elements_eq_map_elem, List.map_map]
  rfl

/-- Settles O38: the deltas as values fit, so that they are stored as packed. -/
theorem packDResult : Obligations.PackDResult := by
  intro w s hblk hpkd (hfit : s.DeltasFit w.toNat)
  have hvalues : ∀ i, i < 128 → (s.deltaAt i).toNat < 2 ^ w.toNat := fun i hi =>
    (Int.toNat_lt (hfit.nonneg i hi)).2 (by exact_mod_cast (hfit i hi).2)
  refine exec_storesPacked (earlyOf_of_packedUsable hblk hpkd trivial rfl rfl) ?_ hvalues
  rw [bodyOf_packD_of_nonneg hfit.nonneg, State.deltaValues_elements, State.storeUnmasked_of_fit hvalues]

/-! ### The unpackers -/

theorem State.packedElem_lt (s : State) (b : Nat) {i : Nat} (hi : i < 128) : s.packedElem b i < 2 ^ b := by
  rw [s.packedElem_eq_digit b hi]
  exact digit_lt _ _ _

/-- A later sum is no smaller (00_scope.md R17). -/
theorem State.sumAt_mono (s : State) (b : Nat) {i j : Nat} (h : i ≤ j) : s.sumAt b i ≤ s.sumAt b j := by
  have hsublist : (List.range (i + 1)).Sublist (List.range (j + 1)) := List.range_sublist.2 (by omega)
  exact Nat.add_le_add_left ((hsublist.map _).sum_le_sum fun _ _ => Nat.zero_le _) _

/-- An unpacker of 32-bit values completes and stores them. -/
theorem exec_storesBlock {i : Instr} {s : State} {v : Nat → Nat} (hearly : earlyOf i s = none)
    (hbody : bodyOf i s = .ok (s.storeElements ((List.range 128).map v))) (h : ∀ i, i < 128 → v i < 2 ^ 32) :
    ∃ t, exec i s = .next t ∧ CompletesInMemory s t ∧ StoresBlock s t v :=
  ⟨_, exec_ok hearly hbody, rfl, storesBlock_storeElements s h⟩

/-- Settles O40: what is unpacked is the elements of the packed buffer, of at most 32 bits. -/
theorem unpackResult : Obligations.UnpackResult := by
  intro w s hblk hpkd
  have hle : w.toNat ≤ 32 := hpkd.1
  refine exec_storesBlock (earlyOf_of_packedUsable hblk hpkd trivial rfl rfl) ?_ fun i hi =>
    (s.packedElem_lt w.toNat hi).trans_le (Nat.pow_le_pow_right (by decide) hle)
  rw [bodyOf, State.unpacked_eq_map_packedElem]

/-- UNPACK_D whose last sum is a 32-bit value (42_delta.md R173, R174). -/
theorem bodyOf_unpackD_of_lt {w : WField} {s : State} (h : s.sumAt w.toNat 127 < 2 ^ 32) :
    bodyOf (.unpackD w) s = .ok (s.storeElements ((List.range 128).map (s.sumAt w.toNat))) := by
  have hlast : (s.reconstructed w.toNat).getD 127 0 < 2 ^ 32 := by
    rwa [s.getD_reconstructed w.toNat (by decide)]
  rw [bodyOf, if_pos hlast, State.reconstructed_eq_map_sumAt]

/-- Settles O41: the last sum is the largest, so that all are 32-bit values. -/
theorem unpackDResult : Obligations.UnpackDResult := fun w s hblk hpkd hlast =>
  exec_storesBlock (earlyOf_of_packedUsable hblk hpkd trivial rfl rfl) (bodyOf_unpackD_of_lt hlast)
    fun _ hi => (s.sumAt_mono w.toNat (by omega)).trans_lt hlast

/-! ### Search and select -/

/-- SEARCH_D that finds a 32-bit value (43_search_select.md R191). -/
theorem bodyOf_searchD_of_found {w : WField} {n : NField} {s : State} {idx : Nat} (hn : n.toNat ≤ 128)
    (hfirst : FirstAtLeastKey s w.toNat n.toNat idx) (hlt : s.sumAt w.toNat idx < 2 ^ 32) :
    bodyOf (.searchD w n) s = .ok { s with
      res0 := BitVec.ofNat 32 idx
      res1 := BitVec.ofNat 32 (s.sumAt w.toNat idx) } := by
  obtain ⟨rfl, hfound⟩ := (firstAtLeastKey_iff hn).1 hfirst
  simp only [bodyOf, s.getD_reconstructed w.toNat (hfound.trans_le hn)]
  rw [if_pos hfound, if_pos hlt]

/-- Settles O43: the index the search ends at is that of the first value not less than `KEY`. -/
theorem searchDFound : Obligations.SearchDFound := fun _ _ _ _ hpos hle hpkd hfirst hlt =>
  exec_ok (earlyOf_searchD hpkd hpos hle) (bodyOf_searchD_of_found hle hfirst hlt)

/-- SELECT_D of a 32-bit value (R194). -/
theorem bodyOf_selectD_of_lt {w : WField} {n : NField} {s : State} (hn : n.toNat ≤ 127)
    (hlt : s.sumAt w.toNat n.toNat < 2 ^ 32) :
    bodyOf (.selectD w n) s = .ok { s with res0 := BitVec.ofNat 32 (s.sumAt w.toNat n.toNat) } := by
  simp only [bodyOf, s.getD_reconstructed w.toNat (show n.toNat < 128 by omega)]
  rw [if_pos hlt]

/-- Settles O45: the value tested and stored is the sum at `N`. -/
theorem selectDResult : Obligations.SelectDResult := by
  intro w n s hn hpkd hlt
  have hearly : earlyOf (.selectD w n) s = none :=
    earlyOf_of_usable hn (fun _ h => nomatch h) (by rintro _ ⟨⟩; exact hpkd)
  exact exec_ok hearly (bodyOf_selectD_of_lt hn hlt)

/-! ### The three readers -/

/-- Element `i` after UNPACK_D has completed. -/
theorem elem_of_unpackD_done {w : WField} {s t : State} (h : exec (.unpackD w) s = .next t)
    (hdone : statusState t.status = 1) {i : Nat} (hi : i < 128) : t.elem i = s.sumAt w.toNat i := by
  obtain ⟨-, u, hbody, rfl⟩ := exec_completes h (by omega)
  have hlast : s.sumAt w.toNat 127 < 2 ^ 32 := by
    rw [← Nat.not_le, ← bodyOf_unpackD_eq_errRange_iff, hbody]
    nofun
  cases hbody.symm.trans (bodyOf_unpackD_of_lt hlast)
  have hsums : ∀ j, j < 128 → s.sumAt w.toNat j < 2 ^ 32 := fun j hj =>
    (s.sumAt_mono w.toNat (by omega)).trans_lt hlast
  exact (storesBlock_storeElements s hsums).1 i hi

/-- `RES0` after SELECT_D has completed. -/
theorem res0_of_selectD_done {w : WField} {n : NField} {s t : State} (h : exec (.selectD w n) s = .next t)
    (hdone : statusState t.status = 1) : n.toNat ≤ 127 ∧ t.res0.toNat = s.sumAt w.toNat n.toNat := by
  obtain ⟨⟨-, hn, -⟩, u, hbody, rfl⟩ := exec_completes h (by omega)
  have hlt : s.sumAt w.toNat n.toNat < 2 ^ 32 := by
    rw [← Nat.not_le, ← bodyOf_selectD_eq_errRange_iff hn, hbody]
    nofun
  cases hbody.symm.trans (bodyOf_selectD_of_lt hn hlt)
  exact ⟨hn, Nat.mod_eq_of_lt hlt⟩

/-- `RES1` after SEARCH_D has completed and found the index in `RES0`. -/
theorem res1_of_searchD_done {w : WField} {n : NField} {s t : State} (h : exec (.searchD w n) s = .next t)
    (hdone : statusState t.status = 1) (hres : t.res0.toNat < n.toNat) :
    t.res1.toNat = s.sumAt w.toNat t.res0.toNat := by
  obtain ⟨⟨-, ⟨-, hn⟩, -⟩, u, hbody, rfl⟩ := exec_completes h (by omega)
  simp only [bodyOf] at hbody
  split at hbody
  · next hfound =>
    rw [s.getD_reconstructed w.toNat (hfound.trans_le hn)] at hbody
    split at hbody <;> cases hbody
    next hlt =>
    have hidx : (BitVec.ofNat 32 (searchIndex s w.toNat n.toNat)).toNat = searchIndex s w.toNat n.toNat :=
      Nat.mod_eq_of_lt (by omega)
    rw [State.complete_res0, State.complete_res1, hidx]
    exact Nat.mod_eq_of_lt hlt
  · cases hbody
    have hidx : (BitVec.ofNat 32 n.toNat).toNat = n.toNat := Nat.mod_eq_of_lt (by omega)
    exact absurd hres hidx.not_lt

/-- A command raises `ERR_RANGE` when its checks pass and its data faults so. -/
theorem exec_eq_raise_errRange_iff (i : Instr) (s : State) :
    exec i s = .next (s.raise .errRange) ↔ ChecksPass i s ∧ bodyOf i s = .error .errRange := by
  rw [exec_eq_raise_iff, earlyOf_none]
  exact or_iff_right (earlyOf_ne_dataFault i s (.inr rfl))

/-- With a usable block buffer UNPACK_D passes the checks that SELECT_D of 127 passes. -/
theorem checksPass_unpackD_iff {w : WField} {s : State} (hblk : s.BlockUsable 512) :
    ChecksPass (.unpackD w) s ↔ ChecksPass (.selectD w 127) s := by
  obtain ⟨haligned, hexists⟩ := hblk
  constructor
  · rintro ⟨hwidth, -, hsize, ⟨-, hpkdAligned⟩, -, hpkdExists⟩
    exact ⟨hwidth, (by decide : (127 : NField).toNat ≤ 127), hsize, ⟨nofun, hpkdAligned⟩, nofun, hpkdExists⟩
  · rintro ⟨hwidth, -, hsize, ⟨-, hpkdAligned⟩, -, hpkdExists⟩
    exact ⟨hwidth, trivial, hsize, ⟨fun _ _ => haligned, hpkdAligned⟩, by rintro _ ⟨⟩; exact hexists, hpkdExists⟩

/-- Settles O55: each reader that completes delivers the sum at the index, and `ERR_RANGE` is in both commands the
fault of the sum at 127. -/
theorem readersAgree : Obligations.ReadersAgree := by
  refine fun w s => ⟨fun n t u ht hu hdt hdu => ?unpack, fun n i u v hu hv hdu hdv hidx hlt => ?search,
    fun hblk => ?range⟩
  case unpack =>
    obtain ⟨hn, hres⟩ := res0_of_selectD_done hu hdu
    rw [hres, elem_of_unpackD_done ht hdt (by omega)]
  case search =>
    obtain ⟨-, hres⟩ := res0_of_selectD_done hu hdu
    have hres1 := res1_of_searchD_done hv hdv (hidx ▸ hlt)
    rw [← BitVec.toNat_inj, hres, hres1, hidx]
  case range =>
    have hselect := bodyOf_selectD_eq_errRange_iff (w := w) (n := 127) (by decide) s
    rw [exec_eq_raise_errRange_iff, exec_eq_raise_errRange_iff, checksPass_unpackD_iff hblk,
      bodyOf_unpackD_eq_errRange_iff, hselect]
    rfl

end Sys2Proof.Machine
end

section
/-! Proofs about the layout of a packed buffer (spec/20_memory.md R71 to R75), for either value of `LAYOUT`: the bit
positions are a bijection, packing and unpacking put and read every bit there, and from these two facts the laws of R75
for both layouts at once. -/

namespace Sys2Proof.Machine

/-! ### Bit positions -/

/-- A position in a stream of `b`-bit values determines the value and the bit. -/
theorem streamPosition_injective {b i k i' k' : Nat} (hk : k < b) (hk' : k' < b) (h : i * b + k = i' * b + k') :
    i = i' ∧ k = k' := by
  have hdiv : ∀ {j m : Nat}, m < b → (j * b + m) / b = j := fun {j m} hm => by
    rw [Nat.mul_comm, Nat.mul_add_div (by omega), Nat.div_eq_of_lt hm, Nat.add_zero]
  have hi : i = i' := by rw [← hdiv (j := i) hk, h, hdiv hk']
  subst hi
  omega

/-- A stream of `n` values of `b` bits has `b * n` positions. -/
theorem streamPosition_lt {b n i k : Nat} (hi : i < n) (hk : k < b) : i * b + k < n * b := by
  calc i * b + k < (i + 1) * b := by rw [Nat.succ_mul]; omega
    _ ≤ n * b := Nat.mul_le_mul_right b hi

section
variable {l : Layout} {b : Nat}

theorem bitPos_word_lt {i k : Nat} (hi : i < 128) (hk : k < b) : (bitPos l b i k).word < b := by
  cases l with
  | horizontal => exact Nat.div_lt_of_lt_mul (streamPosition_lt hi hk)
  | lane4 => exact Nat.div_lt_of_lt_mul (streamPosition_lt (n := 32) (by omega) hk)

theorem bitPos_bit_lt (i k : Nat) : (bitPos l b i k).bit < 128 := by
  cases l with
  | horizontal => exact Nat.mod_lt _ (by decide)
  | lane4 => simp only [bitPos]; omega

theorem bitPos_injective {i k i' k' : Nat} (hk : k < b) (hk' : k' < b)
    (h : bitPos l b i k = bitPos l b i' k') : i = i' ∧ k = k' := by
  cases l with
  | horizontal =>
    simp only [bitPos, BitPos.mk.injEq] at h
    exact streamPosition_injective hk hk' (by omega)
  | lane4 =>
    simp only [bitPos, BitPos.mk.injEq] at h
    obtain ⟨hrow, rfl⟩ := streamPosition_injective hk hk' (show i / 4 * b + k = i' / 4 * b + k' by omega)
    omega

/-- Every bit of the `b` words is some value's (R71, R74). -/
theorem bitPos_surjective {w c : Nat} (hw : w < b) (hc : c < 128) :
    ∃ i k, i < 128 ∧ k < b ∧ bitPos l b i k = ⟨w, c⟩ := by
  have hb : 0 < b := by omega
  cases l with
  | horizontal =>
    refine ⟨(128 * w + c) / b, (128 * w + c) % b, Nat.div_lt_of_lt_mul (by nlinarith), Nat.mod_lt _ hb, ?_⟩
    rw [bitPos, Nat.div_add_mod', BitPos.mk.injEq]
    omega
  | lane4 =>
    have hrow : (32 * w + c % 32) / b < 32 := Nat.div_lt_of_lt_mul (by nlinarith [Nat.mod_lt c (show 32 > 0 by decide)])
    refine ⟨4 * ((32 * w + c % 32) / b) + c / 32, (32 * w + c % 32) % b, by omega, Nat.mod_lt _ hb, ?_⟩
    have hdiv : (4 * ((32 * w + c % 32) / b) + c / 32) / 4 = (32 * w + c % 32) / b := by omega
    rw [bitPos, hdiv, Nat.div_add_mod', BitPos.mk.injEq]
    omega

/-- Settles O46: a stream position is a word and a bit, or a row of lanes and a bit, and divides back. -/
theorem bitPositionsAreBijective : Obligations.BitPositionsAreBijective := fun _ _ _ _ =>
  ⟨fun _ k hi hk => ⟨bitPos_word_lt hi hk, bitPos_bit_lt _ k⟩, fun _ _ _ _ _ hk _ hk' => bitPos_injective hk hk',
    fun _ _ => bitPos_surjective⟩

/-! ### Packed words bit by bit -/

theorem getD_map_range_word {f : Nat → PackedWord} {n j : Nat} (hj : j < n) :
    ((List.range n).map f).getD j 0#128 = f j := by
  simp [hj]

/-- Bit `p` of values joined is a bit of the value at `p / b`. -/
theorem testBit_joinBits_div {vs : List Nat} (h : ∀ v ∈ vs, v < 2 ^ b) {p : Nat} (hb : 0 < b)
    (hp : p < b * vs.length) : (joinBits b vs).testBit p = (vs.getD (p / b) 0).testBit (p % b) := by
  rw [← testBit_joinBits b vs h (p / b) (p % b) (Nat.div_lt_of_lt_mul hp) (Nat.mod_lt _ hb), Nat.div_add_mod']

theorem laneElements_length (vs : List Nat) (j : Nat) : (laneElements vs j).length = 32 := by
  simp [laneElements]

theorem getD_laneElements (vs : List Nat) {j r : Nat} (hr : r < 32) :
    (laneElements vs j).getD r 0 = vs.getD (4 * r + j) 0 :=
  getD_map_range hr

theorem laneElements_lt {vs : List Nat} (h : ∀ v ∈ vs, v < 2 ^ b) (j : Nat) : ∀ v ∈ laneElements vs j, v < 2 ^ b := by
  intro v hv
  obtain ⟨r, -, rfl⟩ := List.mem_map.1 hv
  rw [List.getD_eq_getElem?_getD]
  cases hget : vs[4 * r + j]? with
  | none => exact Nat.two_pow_pos b
  | some x => exact h x (List.mem_of_getElem? hget)

/-- Bit `c` of word `w` under `HORIZONTAL` (R72). -/
theorem getLsbD_packWords_horizontal (vs : List Nat) {w c : Nat} (hw : w < b) (hc : c < 128) :
    ((packWords .horizontal b vs).getD w 0#128).getLsbD c = (joinBits b vs).testBit (w * 128 + c) := by
  rw [packWords, getD_map_range_word hw, BitVec.getLsbD_ofNat, testBit_digit]
  simp [hc]

/-- Bit `c` of word `w` under `LANE4`: 32 bits of each lane's stream a word (R74). -/
theorem getLsbD_packWords_lane4 (vs : List Nat) {w c : Nat} (hw : w < b) (hc : c < 128) :
    ((packWords .lane4 b vs).getD w 0#128).getLsbD c =
      (joinBits b (laneElements vs (c / 32))).testBit (w * 32 + c % 32) := by
  have hlane : c / 32 < 4 := by omega
  have hbit : c % 32 < 32 := by omega
  have hdigits : ∀ v ∈ (List.range 4).map (fun j => digit 32 (joinBits b (laneElements vs j)) w), v < 2 ^ 32 := by
    simpa using fun j _ => digit_lt 32 (joinBits b (laneElements vs j)) w
  rw [packWords, getD_map_range_word hw, BitVec.getLsbD_ofNat, laneWord,
    testBit_joinBits_div hdigits (by decide) (by simpa using hc), getD_map_range hlane, testBit_digit]
  simp [hc, hbit]

/-- Packed words hold bit `k` of value `i` at its position (R72, R74). -/
theorem getLsbD_packWords_bitPos {vs : List Nat} (hlen : vs.length = 128) (hfit : ∀ v ∈ vs, v < 2 ^ b) {i k : Nat}
    (hi : i < 128) (hk : k < b) :
    ((packWords l b vs).getD (bitPos l b i k).word 0#128).getLsbD (bitPos l b i k).bit =
      (vs.getD i 0).testBit k := by
  have hword := bitPos_word_lt (l := l) hi hk
  have hbit := bitPos_bit_lt (l := l) (b := b) i k
  cases l with
  | horizontal =>
    rw [getLsbD_packWords_horizontal vs hword hbit, bitPos, Nat.div_add_mod',
      testBit_joinBits b vs hfit i k (by omega) hk]
  | lane4 =>
    rw [getLsbD_packWords_lane4 vs hword hbit]
    have hlane : (bitPos .lane4 b i k).bit / 32 = i % 4 := by simp only [bitPos]; omega
    have hpos : (bitPos .lane4 b i k).word * 32 + (bitPos .lane4 b i k).bit % 32 = i / 4 * b + k := by
      simp only [bitPos]; omega
    rw [hlane, hpos, testBit_joinBits b _ (laneElements_lt hfit _) _ _ (by rw [laneElements_length]; omega) hk,
      getD_laneElements vs (by omega), Nat.div_add_mod]

/-! ### Unpacked values bit by bit -/

theorem unpackWords_length (l : Layout) (b : Nat) (ws : List PackedWord) : (unpackWords l b ws).length = 128 := by
  cases l <;> simp [unpackWords]

theorem unpackWords_lt {ws : List PackedWord} : ∀ v ∈ unpackWords l b ws, v < 2 ^ b := by
  cases l <;> simpa [unpackWords] using fun i _ => digit_lt b _ _

/-- Unpacked value `i` has as bit `k` the bit at its position (R73, R74). -/
theorem testBit_unpackWords {ws : List PackedWord} (hlen : ws.length = b) {i k : Nat} (hi : i < 128) (hk : k < b) :
    ((unpackWords l b ws).getD i 0).testBit k =
      (ws.getD (bitPos l b i k).word 0#128).getLsbD (bitPos l b i k).bit := by
  have hword := bitPos_word_lt (l := l) hi hk
  cases l with
  | horizontal =>
    have hfit : ∀ v ∈ ws.map BitVec.toNat, v < 2 ^ 128 := by simpa using fun w _ => w.isLt
    have hget : (ws.map BitVec.toNat).getD ((i * b + k) / 128) 0 = (ws.getD ((i * b + k) / 128) 0#128).toNat :=
      List.getD_map ws 0#128 BitVec.toNat
    have hpos : i * b + k < 128 * (ws.map BitVec.toNat).length := by
      rw [List.length_map, hlen]; exact streamPosition_lt hi hk
    rw [unpackWords, getD_map_range hi, testBit_digit, testBit_joinBits_div hfit (by decide) hpos, hget]
    simp [hk, bitPos, BitVec.getLsbD]
  | lane4 =>
    have hfit : ∀ v ∈ ws.map (fun w => digit 32 w.toNat (i % 4)), v < 2 ^ 32 := by
      simpa using fun (w : PackedWord) _ => digit_lt 32 w.toNat (i % 4)
    have hpos : i / 4 * b + k < 32 * (ws.map (fun w => digit 32 w.toNat (i % 4))).length := by
      rw [List.length_map, hlen]; exact streamPosition_lt (by omega) hk
    have hget : (ws.map (fun w => digit 32 w.toNat (i % 4))).getD ((i / 4 * b + k) / 32) 0 =
        digit 32 (ws.getD ((i / 4 * b + k) / 32) 0#128).toNat (i % 4) := by
      have hlt : (i / 4 * b + k) / 32 < ws.length := hlen ▸ hword
      simp [hlt]
    have hbit : (i / 4 * b + k) % 32 < 32 := Nat.mod_lt _ (by decide)
    rw [unpackWords, getD_map_range hi, testBit_digit, laneStream,
      testBit_joinBits_div hfit (by decide) hpos, hget, testBit_digit, decide_eq_true hk, decide_eq_true hbit,
      Bool.true_and, Bool.true_and, Nat.mul_comm (i % 4)]
    rfl

/-- Settles O47: the two facts above. -/
theorem packedBitsAtTheirPositions : Obligations.PackedBitsAtTheirPositions := fun _ _ _ _ =>
  ⟨fun _ hlen hfit _ _ => getLsbD_packWords_bitPos hlen hfit, fun _ hlen _ _ => testBit_unpackWords hlen⟩

/-! ### Lists of values and of words told by their bits -/

/-- Two lists of 128 values of `b` bits are the same when their bits are. -/
theorem values_ext {vs vs' : List Nat} (hlen : vs.length = 128) (hlen' : vs'.length = 128)
    (hfit : ∀ v ∈ vs, v < 2 ^ b) (hfit' : ∀ v ∈ vs', v < 2 ^ b)
    (h : ∀ i k, i < 128 → k < b → (vs.getD i 0).testBit k = (vs'.getD i 0).testBit k) : vs = vs' := by
  refine List.ext_getElem (hlen.trans hlen'.symm) fun i hi hi' => Nat.eq_of_testBit_eq fun k => ?_
  by_cases hk : k < b
  · have hbit := h i k (by omega) hk
    rwa [List.getD_eq_getElem _ _ hi, List.getD_eq_getElem _ _ hi'] at hbit
  · have hpow : 2 ^ b ≤ 2 ^ k := Nat.pow_le_pow_right (by decide) (by omega)
    rw [Nat.testBit_lt_two_pow ((hfit _ (List.getElem_mem hi)).trans_le hpow),
      Nat.testBit_lt_two_pow ((hfit' _ (List.getElem_mem hi')).trans_le hpow)]

/-- Two lists of `b` packed words are the same when their bits are. -/
theorem words_ext {ws ws' : List PackedWord} (hlen : ws.length = b) (hlen' : ws'.length = b)
    (h : ∀ w c, w < b → c < 128 → (ws.getD w 0#128).getLsbD c = (ws'.getD w 0#128).getLsbD c) : ws = ws' := by
  refine List.ext_getElem (hlen.trans hlen'.symm) fun w hw hw' => BitVec.eq_of_getLsbD_eq fun c hc => ?_
  have hbit := h w c (by omega) hc
  rwa [List.getD_eq_getElem _ _ hw, List.getD_eq_getElem _ _ hw'] at hbit

/-- Unpacking what was packed gives the values (R75 law 1). -/
theorem unpackWords_packWords {vs : List Nat} (hlen : vs.length = 128) (hfit : ∀ v ∈ vs, v < 2 ^ b) :
    unpackWords l b (packWords l b vs) = vs := by
  refine values_ext (unpackWords_length _ _ _) hlen unpackWords_lt hfit fun i k hi hk => ?_
  rw [testBit_unpackWords (packWords_length _ _ _) hi hk, getLsbD_packWords_bitPos hlen hfit hi hk]

/-- Packing what was unpacked gives the words (R75 law 2): every bit of a word is at some value's position. -/
theorem packWords_unpackWords {ws : List PackedWord} (hlen : ws.length = b) :
    packWords l b (unpackWords l b ws) = ws := by
  refine words_ext (packWords_length _ _ _) hlen fun w c hw hc => ?_
  obtain ⟨i, k, hi, hk, hpos⟩ := bitPos_surjective (l := l) hw hc
  have hbit := (getLsbD_packWords_bitPos (l := l) (unpackWords_length l b ws) unpackWords_lt hi hk).trans
    (testBit_unpackWords hlen hi hk)
  rwa [hpos] at hbit

/-- Settles O48: packing and unpacking move the same bits between the same places. -/
theorem packUnpackInverse : Obligations.PackUnpackInverse := fun _ _ _ =>
  ⟨fun _ hlen hfit => ⟨packWords_length _ _ _, unpackWords_packWords hlen hfit⟩,
    fun _ hlen => ⟨unpackWords_lt, packWords_unpackWords hlen⟩⟩

/-! ### Two words make a value -/

/-- An unpacked value depends only on the words where its bits are. -/
theorem getD_unpackWords_congr {ws ws' : List PackedWord} (hlen : ws.length = b) (hlen' : ws'.length = b) {i : Nat}
    (hi : i < 128)
    (h : ∀ k, k < b → ws.getD (bitPos l b i k).word 0#128 = ws'.getD (bitPos l b i k).word 0#128) :
    (unpackWords l b ws).getD i 0 = (unpackWords l b ws').getD i 0 := by
  have hlt : ∀ us : List PackedWord, (unpackWords l b us).getD i 0 < 2 ^ b := fun us => by
    rw [List.getD_eq_getElem _ _ (by rwa [unpackWords_length])]
    exact unpackWords_lt _ (List.getElem_mem _)
  refine Nat.eq_of_testBit_eq fun k => ?_
  by_cases hk : k < b
  · rw [testBit_unpackWords hlen hi hk, testBit_unpackWords hlen' hi hk, h k hk]
  · have hpow : 2 ^ b ≤ 2 ^ k := Nat.pow_le_pow_right (by decide) (by omega)
    rw [Nat.testBit_lt_two_pow ((hlt ws).trans_le hpow), Nat.testBit_lt_two_pow ((hlt ws').trans_le hpow)]

/-- Settles O50: at most 32 bits in a row lie in the words of the first and of the last of them. -/
theorem unpackedValueDependsOnTwoWords : Obligations.UnpackedValueDependsOnTwoWords := by
  intro b i ws ws' hpos hle hi hlen hlen'
  refine ⟨fun hfirst hlast => ?horizontal, fun hfirst hlast => ?lane4⟩
  case horizontal =>
    refine getD_unpackWords_congr hlen hlen' hi fun k hk => ?_
    obtain h | h : (i * b + k) / 128 = i * b / 128 ∨ (i * b + k) / 128 = (i * b + b - 1) / 128 := by omega
    · rw [bitPos, h]; exact hfirst
    · rw [bitPos, h]; exact hlast
  case lane4 =>
    refine getD_unpackWords_congr hlen hlen' hi fun k hk => ?_
    obtain h | h : (i / 4 * b + k) / 32 = i / 4 * b / 32 ∨ (i / 4 * b + k) / 32 = (i / 4 * b + b - 1) / 32 := by omega
    · rw [bitPos, h]; exact hfirst
    · rw [bitPos, h]; exact hlast

/-! ### Where the layouts agree -/

/-- At width 32 an element lies at the same place under both layouts. -/
theorem bitPos_width32 {i k : Nat} (hk : k < 32) : bitPos .horizontal 32 i k = bitPos .lane4 32 i k := by
  simp only [bitPos, BitPos.mk.injEq]
  omega

/-- The layouts agree at width 32 (R75 law 4). -/
theorem packWords_width32 {vs : List Nat} (hlen : vs.length = 128) (hfit : ∀ v ∈ vs, v < 2 ^ 32) :
    packWords .horizontal 32 vs = packWords .lane4 32 vs := by
  refine words_ext (packWords_length _ _ _) (packWords_length _ _ _) fun w c hw hc => ?_
  obtain ⟨i, k, hi, hk, hpos⟩ := bitPos_surjective (l := .lane4) hw hc
  have hhorizontal := getLsbD_packWords_bitPos (l := .horizontal) hlen hfit hi hk
  have hlane := getLsbD_packWords_bitPos (l := .lane4) hlen hfit hi hk
  rw [bitPos_width32 hk, ← hlane] at hhorizontal
  rwa [hpos] at hhorizontal

/-- At width 32 a word under `LANE4` is four elements in order. -/
theorem toNat_packWords_lane4_width32 {vs : List Nat} (hfit : ∀ v ∈ vs, v < 2 ^ 32) {w : Nat} (hw : w < 32) :
    ((packWords .lane4 32 vs).getD w 0#128).toNat =
      vs.getD (4 * w) 0 + 2 ^ 32 * vs.getD (4 * w + 1) 0 + 2 ^ 64 * vs.getD (4 * w + 2) 0
        + 2 ^ 96 * vs.getD (4 * w + 3) 0 := by
  have hdigit : ∀ j, digit 32 (joinBits 32 (laneElements vs j)) w = vs.getD (4 * w + j) 0 := fun j => by
    rw [digit_joinBits 32 _ (laneElements_lt hfit j) w (by rwa [laneElements_length]), getD_laneElements vs hw]
  have helem : ∀ j, vs.getD (4 * w + j) 0 < 2 ^ 32 := fun j => hdigit j ▸ digit_lt _ _ _
  have hword : laneWord 32 vs w = vs.getD (4 * w) 0 + 2 ^ 32 * vs.getD (4 * w + 1) 0
      + 2 ^ 64 * vs.getD (4 * w + 2) 0 + 2 ^ 96 * vs.getD (4 * w + 3) 0 := by
    rw [laneWord, show List.range 4 = [0, 1, 2, 3] from rfl]
    simp only [List.map, joinBits, hdigit, Nat.add_zero]
    omega
  have h0 := helem 0
  have h1 := helem 1
  have h2 := helem 2
  have h3 := helem 3
  rw [packWords, getD_map_range_word hw, BitVec.toNat_ofNat, hword, Nat.mod_eq_of_lt]
  rw [Nat.add_zero] at h0
  omega

/-- Bit `p` of the value `c` repeated in `b` bits each. -/
theorem testBit_joinBits_replicate {c n p : Nat} (hb : 0 < b) (hc : c < 2 ^ b) (hp : p < b * n) :
    (joinBits b (List.replicate n c)).testBit p = c.testBit (p % b) := by
  have hdiv : p / b < n := Nat.div_lt_of_lt_mul hp
  have hfit : ∀ v ∈ List.replicate n c, v < 2 ^ b := fun v hv => List.eq_of_mem_replicate hv ▸ hc
  rw [testBit_joinBits_div hfit hb (by simpa using hp), List.getD_replicate _ hdiv]

theorem laneElements_replicate (c : Nat) {j : Nat} (hj : j < 4) :
    laneElements (List.replicate 128 c) j = List.replicate 32 c := by
  refine List.eq_replicate_iff.2 ⟨laneElements_length _ _, fun v hv => ?_⟩
  obtain ⟨r, hr, rfl⟩ := List.mem_map.1 hv
  have hr := List.mem_range.1 hr
  exact List.getD_replicate _ (by omega)

/-- On a constant block the layouts agree exactly when the constant's bits do at the stream positions that the two
layouts give each bit of the words. -/
theorem packWords_replicate_eq_iff {c : Nat} (hc : c < 2 ^ b) :
    packWords .horizontal b (List.replicate 128 c) = packWords .lane4 b (List.replicate 128 c) ↔
      ∀ w x, w < b → x < 128 → c.testBit ((w * 128 + x) % b) = c.testBit ((w * 32 + x % 32) % b) := by
  have hhorizontal : ∀ w x, w < b → x < 128 →
      ((packWords .horizontal b (List.replicate 128 c)).getD w 0#128).getLsbD x =
        c.testBit ((w * 128 + x) % b) := fun w x hw hx => by
    rw [getLsbD_packWords_horizontal _ hw hx, testBit_joinBits_replicate (by omega) hc (by omega)]
  have hlane : ∀ w x, w < b → x < 128 →
      ((packWords .lane4 b (List.replicate 128 c)).getD w 0#128).getLsbD x =
        c.testBit ((w * 32 + x % 32) % b) := fun w x hw hx => by
    rw [getLsbD_packWords_lane4 _ hw hx, laneElements_replicate c (by omega),
      testBit_joinBits_replicate (by omega) hc (by omega)]
  constructor
  · intro h w x hw hx
    rw [← hhorizontal w x hw hx, h, hlane w x hw hx]
  · intro h
    refine words_ext (packWords_length _ _ _) (packWords_length _ _ _) fun w x hw hx => ?_
    rw [hhorizontal w x hw hx, hlane w x hw hx, h w x hw hx]

/-- Bits that repeat every `b` and every 32 do so any number of times 32 on. -/
theorem testBit_add_mul_32 {c : Nat} (hb : 0 < b) (h : ∀ k, k < b → c.testBit k = c.testBit ((k + 32) % b))
    (p j : Nat) : c.testBit ((p + 32 * j) % b) = c.testBit (p % b) := by
  induction j with
  | zero => rfl
  | succ j ih => rw [← ih, h ((p + 32 * j) % b) (Nat.mod_lt _ hb), Nat.mod_add_mod, Nat.mul_succ, Nat.add_assoc]

/-- Settles O49: word 0 alone says that the bits repeat every 32, and then the stream positions, which differ by a
multiple of 32, have the same bit in every word. -/
theorem layoutsCoincide : Obligations.LayoutsCoincide := by
  refine ⟨fun vs hlen hfit => ?width32, fun b c hle hc => ?constant⟩
  case width32 =>
    have hsame := packWords_width32 hlen hfit
    exact ⟨hsame, fun w hw => hsame ▸ toNat_packWords_lane4_width32 hfit hw⟩
  case constant =>
    rw [packWords_replicate_eq_iff hc]
    constructor
    · intro h k hk
      have hbit := h 0 (k + 32) (by omega) (by omega)
      rw [show 0 * 128 + (k + 32) = k + 32 by omega, show 0 * 32 + (k + 32) % 32 = k by omega,
        Nat.mod_eq_of_lt hk] at hbit
      exact hbit.symm
    · intro h w x hw hx
      rw [show w * 128 + x = w * 32 + x % 32 + 32 * (3 * w + x / 32) by omega]
      exact testBit_add_mul_32 (by omega) h _ _

end

end Sys2Proof.Machine
end
